-- ==== Sys2Proof/Word.lean ====
section
/-! DEFINITION. The two widths the block works with: the 64-bit command word (R70, R71) and the 8-bit entry of
every store (R22, R52, R100). -/

namespace Sys2Proof

/-- One command, presented whole, bit 63 to bit 0 (R70). -/
abbrev Word := BitVec 64

/-- One buffer entry, ROM entry, operand byte or response (R22, R37, R71, R100). -/
abbrev Byte := BitVec 8

/-- The number to display, operand V (R71, D5). -/
abbrev Value := BitVec 32

end Sys2Proof
end

