-- ==== Sys2Proof/Config.lean ====
section
/-! DEFINITION. The parameters of the block (R7). What is settled is a number; TICK_HZ is open and has no value here.
The contents of SEG_ROM stand in Machine/Rom.lean and the order of a tick in Machine/Multiplex.lean. -/

namespace Sys2Proof

/-- R3, D28: the identity string the spec gives the block. -/
def Config.identity : String := "seg7x4-mux"

/-- N_DIGITS (R7). -/
def Config.nDigits : Nat := 4

/-- N_SEGMENTS (R7). -/
def Config.nSegments : Nat := 8

/-- N_LINES (R7). -/
def Config.nLines : Nat := 12

/-- ROM_ENTRIES (R7). -/
def Config.romEntries : Nat := 16

/-- BASE_MIN (R7). -/
def Config.baseMin : Nat := 2

/-- BASE_MAX (R7). -/
def Config.baseMax : Nat := 16

/-- TICK_HZ (R7, R250, D23): OPEN. No rule reads it and the model keeps no time (log 10). -/
opaque Config.tickHz : Nat

/-- The parameter SEG_ROM (R7, R100, R101): entry 0 is fixed at 0x3F and bit 7 of every entry is fixed at 0 (R103),
so a value of the parameter is the low seven bits of the entries 1 to 15. -/
structure SegRom where
  e1 : BitVec 7
  e2 : BitVec 7
  e3 : BitVec 7
  e4 : BitVec 7
  e5 : BitVec 7
  e6 : BitVec 7
  e7 : BitVec 7
  e8 : BitVec 7
  e9 : BitVec 7
  e10 : BitVec 7
  e11 : BitVec 7
  e12 : BitVec 7
  e13 : BitVec 7
  e14 : BitVec 7
  e15 : BitVec 7
  deriving DecidableEq, Repr

/-- The parameter TICK_ORDER (R7, R184). -/
inductive TickOrder where
  /-- advance PTR, then show the new position: this hardware (R182). -/
  | advanceThenShow
  /-- show PTR, then advance it: the other variant (R184, C2). -/
  | showThenAdvance
  deriving DecidableEq, Repr

end Sys2Proof
end

