-- ==== Sys2Proof/Syntax.lean ====
section
/-! DEFINITION. The names the spec uses (positions, segments, lines, opcodes, formats, fault codes) and the commands
as terms. A command keeps its operand bytes as the word spells them; Machine/Operands.lean reads them (R73, R74). -/

namespace Sys2Proof

/-- A digit position, index 0 to 3 (R12). -/
inductive Position where
  | d1 | d2 | d3 | d4
  deriving DecidableEq, Repr

/-- A segment identifier, index 0 to 7 (R11, R26). -/
inductive Segment where
  | a | b | c | d | e | f | g | dp
  deriving DecidableEq, Repr

/-- One of the 12 lines: numbers 0 to 7 are segment lines, 8 to 11 digit lines (R27). -/
inductive Line where
  | seg (s : Segment)
  | dig (p : Position)
  deriving DecidableEq, Repr

/-- The six faults of the block (R231). -/
inductive FaultCode where
  | illegalOpcode
  | reservedNonzero
  | baseRange
  | digitRange
  | lineRange
  | reinit
  deriving DecidableEq, Repr

/-- The 17 assigned opcodes (R76). -/
inductive Opcode where
  | init | setnum | setdp | showPos | tick
  | digen | digdis | segen | segdis | digdisall | segdisall | apply | encapply
  | enc
  | pinhi | pinlo | pintgl
  deriving DecidableEq, Repr

/-- The seven formats (R72). -/
inductive Format where
  /-- no operand -/
  | n
  /-- digit position -/
  | p
  /-- segment -/
  | g
  /-- mask -/
  | m
  /-- digit value -/
  | d
  /-- line -/
  | l
  /-- set number -/
  | s
  deriving DecidableEq, Repr

/-- A command: one constructor per row of the opcode table (R76). The `a` and `b` operands are the bytes of the word. -/
inductive Instr where
  /-- INIT (R150) -/
  | init
  /-- SETNUM value, base (R151) -/
  | setnum (v : Value) (b : Byte)
  /-- SETDP position (R153) -/
  | setdp (a : Byte)
  /-- SHOW position (R180) -/
  | showPos (a : Byte)
  /-- TICK (R182) -/
  | tick
  /-- DIGEN position (R124) -/
  | digen (a : Byte)
  /-- DIGDIS position (R125) -/
  | digdis (a : Byte)
  /-- SEGEN segment (R126) -/
  | segen (a : Byte)
  /-- SEGDIS segment (R127) -/
  | segdis (a : Byte)
  /-- DIGDISALL (R128) -/
  | digdisall
  /-- SEGDISALL (R129) -/
  | segdisall
  /-- APPLY mask (R130) -/
  | apply (a : Byte)
  /-- ENCAPPLY digit value (R131) -/
  | encapply (a : Byte)
  /-- ENC digit value (R102) -/
  | enc (a : Byte)
  /-- PINHI line (R213) -/
  | pinhi (a : Byte)
  /-- PINLO line (R214) -/
  | pinlo (a : Byte)
  /-- PINTGL line (R215) -/
  | pintgl (a : Byte)
  deriving DecidableEq, Repr

end Sys2Proof
end

