-- ==== Sys2Proof/WellFormed.lean ====
section
/-! DEFINITION. The operand ranges of R75: which commands a word can spell. Positions, segments and masks admit
every byte (R72, R74). -/

namespace Sys2Proof

/-- R75: a digit value is at most 15, a line number at most 11, a base in 2 to 16. -/
def Instr.wf : Instr → Bool
  | .init => true
  | .setnum _ b => decide (Config.baseMin ≤ b.toNat ∧ b.toNat ≤ Config.baseMax)
  | .setdp _ => true
  | .showPos _ => true
  | .tick => true
  | .digen _ => true
  | .digdis _ => true
  | .segen _ => true
  | .segdis _ => true
  | .digdisall => true
  | .segdisall => true
  | .apply _ => true
  | .encapply a => decide (a.toNat < Config.romEntries)
  | .enc a => decide (a.toNat < Config.romEntries)
  | .pinhi a => decide (a.toNat < Config.nLines)
  | .pinlo a => decide (a.toNat < Config.nLines)
  | .pintgl a => decide (a.toNat < Config.nLines)

end Sys2Proof
end

