-- ==== Sys2Proof/Decode.lean ====
section
/-! DEFINITION. The command word: its fields (R71), the opcode map (R76), the decoder in the order of R78, and the
encoder written from the same tables. -/

namespace Sys2Proof

/-! ## The fields of a word (R71) -/

/-- `op`, w[63:56]. -/
def opField (w : Word) : Byte := w.extractLsb' 56 8

/-- operand A, w[55:48]. -/
def aField (w : Word) : Byte := w.extractLsb' 48 8

/-- operand B, w[47:40]. -/
def bField (w : Word) : Byte := w.extractLsb' 40 8

/-- the reserved field, w[39:32]. -/
def zField (w : Word) : Byte := w.extractLsb' 32 8

/-- operand V, w[31:0]. -/
def vField (w : Word) : Value := w.extractLsb' 0 32

/-- R71: w = {op, a, b, z, v}. -/
def assemble (op a b z : Byte) (v : Value) : Word := op ++ a ++ b ++ z ++ v

/-! ## The opcode map (R76) -/

/-- The assigned opcodes, in the table's order. -/
def Opcode.all : List Opcode :=
  [.init, .setnum, .setdp, .showPos, .tick, .digen, .digdis, .segen, .segdis, .digdisall, .segdisall, .apply,
    .encapply, .enc, .pinhi, .pinlo, .pintgl]

/-- The value of `op` that the table assigns to a command. -/
def Opcode.byte : Opcode → Byte
  | .init => 0x01#8
  | .setnum => 0x02#8
  | .setdp => 0x03#8
  | .showPos => 0x04#8
  | .tick => 0x05#8
  | .digen => 0x10#8
  | .digdis => 0x11#8
  | .segen => 0x12#8
  | .segdis => 0x13#8
  | .digdisall => 0x14#8
  | .segdisall => 0x15#8
  | .apply => 0x16#8
  | .encapply => 0x17#8
  | .enc => 0x20#8
  | .pinhi => 0x30#8
  | .pinlo => 0x31#8
  | .pintgl => 0x32#8

/-- The command's format (R76). -/
def Opcode.format : Opcode → Format
  | .init => .n
  | .setnum => .s
  | .setdp => .p
  | .showPos => .p
  | .tick => .n
  | .digen => .p
  | .digdis => .p
  | .segen => .g
  | .segdis => .g
  | .digdisall => .n
  | .segdisall => .n
  | .apply => .m
  | .encapply => .d
  | .enc => .d
  | .pinhi => .l
  | .pinlo => .l
  | .pintgl => .l

/-- The table's `match` column: what the word spells outside its operand bits. -/
def Opcode.matchWord : Opcode → Word
  | .init => 0x0100000000000000#64
  | .setnum => 0x0200000000000000#64
  | .setdp => 0x0300000000000000#64
  | .showPos => 0x0400000000000000#64
  | .tick => 0x0500000000000000#64
  | .digen => 0x1000000000000000#64
  | .digdis => 0x1100000000000000#64
  | .segen => 0x1200000000000000#64
  | .segdis => 0x1300000000000000#64
  | .digdisall => 0x1400000000000000#64
  | .segdisall => 0x1500000000000000#64
  | .apply => 0x1600000000000000#64
  | .encapply => 0x1700000000000000#64
  | .enc => 0x2000000000000000#64
  | .pinhi => 0x3000000000000000#64
  | .pinlo => 0x3100000000000000#64
  | .pintgl => 0x3200000000000000#64

/-- The table's `mask` column, which depends on the format alone: the bits that are no operand bits. -/
def Format.maskWord : Format → Word
  | .n => 0xFFFFFFFFFFFFFFFF#64
  | .s => 0xFFFF00FF00000000#64
  | .p => 0xFF00FFFFFFFFFFFF#64
  | .g => 0xFF00FFFFFFFFFFFF#64
  | .m => 0xFF00FFFFFFFFFFFF#64
  | .d => 0xFF00FFFFFFFFFFFF#64
  | .l => 0xFF00FFFFFFFFFFFF#64

/-- R76: the word spells the command when `w AND mask = match`. -/
def Opcode.spells (o : Opcode) (w : Word) : Bool := w &&& o.format.maskWord == o.matchWord

/-- The command `op` is assigned to, if any. -/
def opcodeOf? (op : Byte) : Option Opcode := Opcode.all.find? fun o => o.byte == op

/-- The must-be-zero fields of the format are zero (R72). -/
def Format.reservedZero (f : Format) (w : Word) : Bool :=
  match f with
  | .n => aField w == 0#8 && bField w == 0#8 && zField w == 0#8 && vField w == 0#32
  | .s => aField w == 0#8 && zField w == 0#8
  | .p | .g | .m | .d | .l => bField w == 0#8 && zField w == 0#8 && vField w == 0#32

/-! ## Decoding -/

/-- What a word decodes to: a command, or the fault it raises, by name (R77, R78). -/
inductive Decoded where
  | instr (i : Instr)
  | reject (c : FaultCode)
  deriving DecidableEq, Repr

/-- The command with the operand fields given (R73). -/
def Opcode.make (o : Opcode) (a b : Byte) (v : Value) : Instr :=
  match o with
  | .init => .init
  | .setnum => .setnum v b
  | .setdp => .setdp a
  | .showPos => .showPos a
  | .tick => .tick
  | .digen => .digen a
  | .digdis => .digdis a
  | .segen => .segen a
  | .segdis => .segdis a
  | .digdisall => .digdisall
  | .segdisall => .segdisall
  | .apply => .apply a
  | .encapply => .encapply a
  | .enc => .enc a
  | .pinhi => .pinhi a
  | .pinlo => .pinlo a
  | .pintgl => .pintgl a

/-- R75: the fault of an operand outside the range of its format. -/
def Format.rangeFault (f : Format) (a b : Byte) : Option FaultCode :=
  match f with
  | .d => if 15 < a.toNat then some .digitRange else none
  | .l => if 11 < a.toNat then some .lineRange else none
  | .s => if b.toNat < Config.baseMin ∨ Config.baseMax < b.toNat then some .baseRange else none
  | .n | .p | .g | .m => none

/-- R78: opcode, then reserved fields, then ranges; the first failing check gives the fault. Total on every word. -/
def decode (w : Word) : Decoded :=
  match opcodeOf? (opField w) with
  | none => .reject .illegalOpcode
  | some o =>
    if o.format.reservedZero w then
      match o.format.rangeFault (aField w) (bField w) with
      | some c => .reject c
      | none => .instr (o.make (aField w) (bField w) (vField w))
    else .reject .reservedNonzero

/-- The command a word decodes to, where it decodes. -/
def Decoded.instr? : Decoded → Option Instr
  | .instr i => some i
  | .reject _ => none

/-- The instruction of a row of the opcode table whose bits are `w`: the table numbers the 64 bits of the one word as R71
does, bit 0 least significant, so no byte order enters (R52; log 17). -/
def decodeTableWord (nbits w : Nat) : Option Instr := (decode (BitVec.ofNat 64 (w % 2 ^ nbits))).instr?

/-! ## Encoding -/

/-- The opcode of a command. -/
def Instr.opcode : Instr → Opcode
  | .init => .init
  | .setnum _ _ => .setnum
  | .setdp _ => .setdp
  | .showPos _ => .showPos
  | .tick => .tick
  | .digen _ => .digen
  | .digdis _ => .digdis
  | .segen _ => .segen
  | .segdis _ => .segdis
  | .digdisall => .digdisall
  | .segdisall => .segdisall
  | .apply _ => .apply
  | .encapply _ => .encapply
  | .enc _ => .enc
  | .pinhi _ => .pinhi
  | .pinlo _ => .pinlo
  | .pintgl _ => .pintgl

/-- Operand A as the command spells it, 0 where its format has none (R72). -/
def Instr.aOperand : Instr → Byte
  | .setdp a | .showPos a | .digen a | .digdis a | .segen a | .segdis a | .apply a | .encapply a | .enc a
  | .pinhi a | .pinlo a | .pintgl a => a
  | .init | .setnum _ _ | .tick | .digdisall | .segdisall => 0#8

/-- Operand B, 0 but in SETNUM (R72). -/
def Instr.bOperand : Instr → Byte
  | .setnum _ b => b
  | .init | .tick | .digdisall | .segdisall => 0#8
  | .setdp _ | .showPos _ | .digen _ | .digdis _ | .segen _ | .segdis _ | .apply _ | .encapply _ | .enc _
  | .pinhi _ | .pinlo _ | .pintgl _ => 0#8

/-- Operand V, 0 but in SETNUM (R72). -/
def Instr.vOperand : Instr → Value
  | .setnum v _ => v
  | .init | .tick | .digdisall | .segdisall => 0#32
  | .setdp _ | .showPos _ | .digen _ | .digdis _ | .segen _ | .segdis _ | .apply _ | .encapply _ | .enc _
  | .pinhi _ | .pinlo _ | .pintgl _ => 0#32

/-- The word of a command (R71, R72, R76). -/
def encode (i : Instr) : Word := assemble i.opcode.byte i.aOperand i.bOperand 0#8 i.vOperand

end Sys2Proof
end

