-- ==== Sys2Proof/Machine/State.lean ====
section
/-! DEFINITION. The state of the block (R20) with the model's own inputs and records beside it, the reasons a step can
stop, and the state after reset (R39). -/

namespace Sys2Proof.Machine

/-- The level of a line (R27, R32). A segment line is never `high` and a digit line never `released`. -/
inductive Level where
  /-- a digit line driven high: the digit is enabled (R29) -/
  | high
  /-- a digit line driven low (disabled, R29), or a segment line pulled low (enabled, R28) -/
  | low
  /-- an open-drain segment line left floating: disabled (R28) -/
  | released
  /-- UNSPEC: the level of a line nothing has written since reset or INIT (R27, R31, R39; log 6) -/
  | unspec
  deriving DecidableEq, Repr

/-- One thing for each digit position: the four buffers, the four digit latches (R22, R27). -/
structure PerDigit (α : Type) where
  d1 : α
  d2 : α
  d3 : α
  d4 : α
  deriving DecidableEq, Repr

/-- One thing for each segment: the eight segment latches (R27). -/
structure PerSegment (α : Type) where
  a : α
  b : α
  c : α
  d : α
  e : α
  f : α
  g : α
  dp : α
  deriving DecidableEq, Repr

/-- One event of the line trace: a line written to a level (R31). -/
structure LineEvent where
  line : Line
  level : Level
  deriving DecidableEq, Repr

/-- The executing context (R35). -/
inductive Ctx where
  /-- the foreground task -/
  | fg
  /-- the callback of the periodic trigger -/
  | tk
  deriving DecidableEq, Repr

/-- What the trigger does around one step (R243, R245; log 2). -/
structure Slot where
  /-- it fires before the step, while no command executes -/
  before : Bool
  /-- it fires while the step's command executes -/
  during : Bool
  deriving DecidableEq, Repr

/-- A command as a fault outcome names it: its word and its position in the command stream (R232; log 3). -/
structure CommandRecord where
  word : Word
  position : Nat
  deriving DecidableEq, Repr

/-- The block (R20), then the model's own fields. -/
structure State where
  /-- PRESENT (R21) -/
  present : Bool
  /-- buf[0..3]; `d1` is buf[0], the most significant digit (R22, R12) -/
  buf : PerDigit Byte
  /-- PTR (R24) -/
  ptr : Position
  /-- seg_out[0..7], lines 0 to 7 (R27) -/
  segOut : PerSegment Level
  /-- dig_out[0..3], lines 8 to 11 (R27) -/
  digOut : PerDigit Level
  /-- trace, oldest event first (R31) -/
  trace : List LineEvent
  /-- FAULT, `none` for the code 0 (R33, R231) -/
  fault : Option FaultCode
  /-- TICK_PENDING (R34) -/
  tickPending : Bool
  /-- CTX (R35) -/
  ctx : Ctx
  /-- the model's: the values put on the response port, oldest first (R37, D29; log 4) -/
  responses : List Byte
  /-- the model's: the words the foreground has presented and the block has not run, next first (R36, R70; log 1) -/
  commands : List Word
  /-- the model's: how many foreground words have been run (R36; log 1) -/
  position : Nat
  /-- the model's: what the trigger does around the coming steps; no firing after the list's end (R245; log 2) -/
  firings : List Slot
  /-- the model's: the command that set FAULT (R232; log 3) -/
  faulting : Option CommandRecord
  deriving DecidableEq, Repr

/-- Why the machine stops. -/
inductive Fault where
  /-- Raised by `step` in a state whose FAULT is not 0: the block is halted and executes no command and no tick (R233). It
  names the code and, where a step of the model set it, the command (R232). Safe: there is no successor state to claim anything of. -/
  | halted (code : FaultCode) (command : Option CommandRecord)
  deriving DecidableEq, Repr

/-- Why an instruction is refused. -/
inductive Refusal where
  /-- The arm of an instruction that has no meaning yet would answer this; no arm does. Safe: the model stops. -/
  | notModelled (mnemonic : String)
  deriving DecidableEq, Repr

/-- The state just after power-on (R39, R270). The buffers and PTR are unspecified there; their values are the model's choice
(log 5, DESIGN CHOICE, unsafe), which no command reads before INIT has written them (R23, R24, R240). Nothing is
presented and the trigger does not fire (R272, R273; log 11). -/
def State.reset : State where
  present := false
  buf := { d1 := 0x00#8, d2 := 0x00#8, d3 := 0x00#8, d4 := 0x00#8 }
  ptr := .d1
  segOut := { a := .unspec, b := .unspec, c := .unspec, d := .unspec, e := .unspec, f := .unspec, g := .unspec,
              dp := .unspec }
  digOut := { d1 := .unspec, d2 := .unspec, d3 := .unspec, d4 := .unspec }
  trace := []
  fault := none
  tickPending := false
  ctx := .fg
  responses := []
  commands := []
  position := 0
  firings := []
  faulting := none

end Sys2Proof.Machine
end

