-- ==== Sys2Proof/Machine/Flags.lean ====
section
/-! DEFINITION. The block's two status flags, PRESENT and FAULT (R36, R38), as registers. It has no condition codes. -/

namespace Sys2Proof

/-- The number of a fault code (R231). -/
def FaultCode.code : FaultCode → Byte
  | .illegalOpcode => 1#8
  | .reservedNonzero => 2#8
  | .baseRange => 3#8
  | .digitRange => 4#8
  | .lineRange => 5#8
  | .reinit => 6#8

namespace Machine

/-- FAULT as the 8-bit register of R33: 0 means no fault. -/
def faultRegister (s : State) : Byte :=
  match s.fault with
  | none => 0#8
  | some c => c.code

/-- PRESENT as the bit of R21. -/
def presentBit (s : State) : BitVec 1 := BitVec.ofBool s.present

/-- Has the block halted (R233)? -/
def halted (s : State) : Bool := s.fault.isSome

end Machine

end Sys2Proof
end

