-- ==== Sys2Proof/Machine/Operands.lean ====
section
/-! DEFINITION. How a command reads its operand bytes: one form for each format of R72 (R73, R74, R75), with the index
conversions of R26 and the numbering of lines (R27) they rest on. -/

namespace Sys2Proof

/-! ## Positions (R12, R25, R26) -/

/-- The index of a position: D1 = 0 to D4 = 3 (R12). -/
def Position.index : Position → Nat
  | .d1 => 0
  | .d2 => 1
  | .d3 => 2
  | .d4 => 3

/-- The position of an integer index, `i mod 4`: total (R26). -/
def Position.ofIndex (i : Nat) : Position :=
  match i % 4 with
  | 0 => .d1
  | 1 => .d2
  | 2 => .d3
  | _ => .d4

/-- The cyclic successor (R25). -/
def Position.next : Position → Position
  | .d1 => .d2
  | .d2 => .d3
  | .d3 => .d4
  | .d4 => .d1

/-- The positions in ascending order. -/
def Position.all : List Position := [.d1, .d2, .d3, .d4]

/-! ## Segments (R11, R26) -/

/-- The index of a segment: A = 0 to DecimalPoint = 7, also its bit in a mask (R11). -/
def Segment.index : Segment → Nat
  | .a => 0
  | .b => 1
  | .c => 2
  | .d => 3
  | .e => 4
  | .f => 5
  | .g => 6
  | .dp => 7

/-- The segment of an integer index, `i mod 8`: total (R26). -/
def Segment.ofIndex (i : Nat) : Segment :=
  match i % 8 with
  | 0 => .a
  | 1 => .b
  | 2 => .c
  | 3 => .d
  | 4 => .e
  | 5 => .f
  | 6 => .g
  | _ => .dp

/-- The segments in ascending order. -/
def Segment.all : List Segment := [.a, .b, .c, .d, .e, .f, .g, .dp]

/-! ## Lines (R27) -/

/-- The number of a line: the segment's index, or 8 plus the digit's. -/
def Line.number : Line → Nat
  | .seg s => s.index
  | .dig p => 8 + p.index

/-- The line of a number; there is none above 11 (R51, R75). -/
def Line.ofNumber (n : Nat) : Option Line :=
  if n < 8 then some (.seg (Segment.ofIndex n))
  else if n < 12 then some (.dig (Position.ofIndex (n - 8)))
  else none

/-- The 12 lines in ascending order. -/
def Line.all : List Line := Segment.all.map Line.seg ++ Position.all.map Line.dig

namespace Machine

/-! ## The operand of each format (R73) -/

/-- Format P: `p = a mod 4` (R74). -/
def positionOperand (a : Byte) : Position := Position.ofIndex a.toNat

/-- Format G: `s = a mod 8` (R74). -/
def segmentOperand (a : Byte) : Segment := Segment.ofIndex a.toNat

/-- Format M: `m = a`. -/
def maskOperand (a : Byte) : Byte := a

/-- Format D: the 4-bit digit value, none above 15 (R75). -/
def digitOperand (a : Byte) : Option (BitVec 4) := if a.toNat < 16 then some (BitVec.ofNat 4 a.toNat) else none

/-- Format L: the line, none above 11 (R75). -/
def lineOperand (a : Byte) : Option Line := Line.ofNumber a.toNat

/-- Format S: the base, none outside 2 to 16 (R75, R151). -/
def baseOperand (b : Byte) : Option Nat :=
  if Config.baseMin ≤ b.toNat ∧ b.toNat ≤ Config.baseMax then some b.toNat else none

/-- Format S: the value, a natural (R73). -/
def valueOperand (v : Value) : Nat := v.toNat

end Machine

end Sys2Proof
end

