-- ==== Sys2Proof/Machine/Ops.lean ====
section
/-! DEFINITION. The primitives of R10 over the block's stores, the sequences of line writes the commands share, raising a
fault, and taking a tick and returning from it. -/

namespace Sys2Proof.Machine

/-- What a command or a step answers. -/
abbrev Result := Host.Outcome State Fault Refusal

/-- A change of the next state, where there is one. -/
def mapNext (f : State → State) : Result → Result
  | .next s => .next (f s)
  | .fault r => .fault r
  | .refused r => .refused r

/-! ## Indexed stores -/

def PerDigit.get {α : Type} (v : PerDigit α) : Position → α
  | .d1 => v.d1
  | .d2 => v.d2
  | .d3 => v.d3
  | .d4 => v.d4

def PerDigit.set {α : Type} (v : PerDigit α) (p : Position) (x : α) : PerDigit α :=
  match p with
  | .d1 => { v with d1 := x }
  | .d2 => { v with d2 := x }
  | .d3 => { v with d3 := x }
  | .d4 => { v with d4 := x }

/-- The store that holds at each position what `f` gives there. -/
def PerDigit.tabulate {α : Type} (f : Position → α) : PerDigit α :=
  { d1 := f .d1, d2 := f .d2, d3 := f .d3, d4 := f .d4 }

def PerSegment.get {α : Type} (v : PerSegment α) : Segment → α
  | .a => v.a
  | .b => v.b
  | .c => v.c
  | .d => v.d
  | .e => v.e
  | .f => v.f
  | .g => v.g
  | .dp => v.dp

def PerSegment.set {α : Type} (v : PerSegment α) (s : Segment) (x : α) : PerSegment α :=
  match s with
  | .a => { v with a := x }
  | .b => { v with b := x }
  | .c => { v with c := x }
  | .d => { v with d := x }
  | .e => { v with e := x }
  | .f => { v with f := x }
  | .g => { v with g := x }
  | .dp => { v with dp := x }

/-- The store that holds `x` at every segment. -/
def PerSegment.fill {α : Type} (x : α) : PerSegment α :=
  { a := x, b := x, c := x, d := x, e := x, f := x, g := x, dp := x }

/-! ## The buffer space (R10, R50) -/

/-- `buf[i]`, MemRead(i, 1). -/
def readBuf (p : Position) (s : State) : Byte := s.buf.get p

/-- `buf[i] <- m`, MemWrite(i, 1, m). -/
def writeBuf (p : Position) (m : Byte) (s : State) : State := { s with buf := s.buf.set p m }

/-- All four buffers at once, position by position (R54). -/
def writeAllBufs (f : Position → Byte) (s : State) : State := { s with buf := PerDigit.tabulate f }

/-! ## The line space (R10, R27, R31) -/

/-- `latch[l]`. -/
def readLatch (l : Line) (s : State) : Level :=
  match l with
  | .seg sg => s.segOut.get sg
  | .dig p => s.digOut.get p

/-- `latch[l] <- level`, without an event. -/
def writeLatch (l : Line) (v : Level) (s : State) : State :=
  match l with
  | .seg sg => { s with segOut := s.segOut.set sg v }
  | .dig p => { s with digOut := s.digOut.set p v }

/-- Drive(line, level): sets the latch and appends the event, even when the latch already held the level (R31). -/
def drive (l : Line) (v : Level) (s : State) : State :=
  let t := writeLatch l v s
  { t with trace := t.trace ++ [{ line := l, level := v }] }

/-- A sequence of line writes, in the order of the list (R54, R59). -/
def driveAll (es : List LineEvent) (s : State) : State := es.foldl (fun t e => drive e.line e.level t) s

/-- `latch[l] <- UNSPEC` for every line, without an event: INIT alone does this (R31, R150). -/
def unspecAll (s : State) : State :=
  { s with
    segOut := PerSegment.fill .unspec
    digOut := PerDigit.tabulate fun _ => .unspec }

/-! ## Levels (R28, R29, R32, R123) -/

/-- The level that makes a segment line enabled or disabled: enabling pulls the cathode low, disabling releases it. -/
def segmentLevel (on : Bool) : Level := if on then .low else .released

/-- The level that makes a digit line enabled or disabled. -/
def digitLevel (on : Bool) : Level := if on then .high else .low

/-- set-high of the pin capability: an open-drain line is released, never driven high (R32, R212, C6). -/
def setHighLevel : Line → Level
  | .seg _ => .released
  | .dig _ => .high

/-- set-low of the pin capability (R32). -/
def setLowLevel : Line → Level
  | .seg _ => .low
  | .dig _ => .low

/-- toggle of the pin capability (R215): a known level becomes the line's other level, anything else UNSPEC. -/
def toggledLevel (l : Line) (old : Level) : Level :=
  match l, old with
  | .seg _, .low => .released
  | .seg _, .released => .low
  | .seg _, .high => .unspec
  | .seg _, .unspec => .unspec
  | .dig _, .low => .high
  | .dig _, .high => .low
  | .dig _, .released => .unspec
  | .dig _, .unspec => .unspec

/-! ## Sequences of line writes the commands share (ascending: R128, R129, R130, R180) -/

/-- The flag of a segment in a mask (R11). -/
def maskBit (m : Byte) (sg : Segment) : Bool := m.getLsbD sg.index

/-- Every digit line Low: DIGDISALL, and step 1 of SHOW. -/
def digitsOffWrites : List LineEvent := Position.all.map fun p => { line := .dig p, level := digitLevel false }

/-- Every segment line Released: SEGDISALL. -/
def segmentsOffWrites : List LineEvent :=
  Segment.all.map fun sg => { line := .seg sg, level := segmentLevel false }

/-- Every segment line to its mask bit's level: APPLY, and step 2 of SHOW. -/
def maskWrites (m : Byte) : List LineEvent :=
  Segment.all.map fun sg => { line := .seg sg, level := segmentLevel (maskBit m sg) }

/-- The thirteen writes of SHOW in their mandatory order (R180, R181). -/
def showWrites (p : Position) (m : Byte) : List LineEvent :=
  digitsOffWrites ++ maskWrites m ++ [{ line := .dig p, level := digitLevel true }]

/-! ## The absent state, the response port, faults -/

/-- The absent-state policy (R21, R240): nothing happens while PRESENT = 0. -/
def whenPresent (f : State → State) (s : State) : State := if s.present then f s else s

/-- `respond(m)`: places a value on the response port (R10, R37; log 4). -/
def respond (m : Byte) (s : State) : State := { s with responses := s.responses ++ [m] }

/-- `raise Fault(code)`: FAULT takes the code and nothing else changes (R230; log 3). There is no return from a fault (R234). -/
def raiseFault (c : FaultCode) (s : State) : State := { s with fault := some c }

/-! ## Taking a tick and returning from it (R243, R247; log 12) -/

/-- Entry of the tick context: CTX becomes TK and starting the TICK clears TICK_PENDING. Nothing is saved. -/
def enterTick (s : State) : State := { s with ctx := .tk, tickPending := false }

/-- The end of the tick context: CTX becomes FG. -/
def returnFromTick (s : State) : State := { s with ctx := .fg }

/-- A firing while a command executes is held in TICK_PENDING (R243). -/
def holdFiring (fired : Bool) (s : State) : State := { s with tickPending := s.tickPending || fired }

end Sys2Proof.Machine
end

