-- ==== Sys2Proof/Machine/Arbiter.lean ====
section
/-! DEFINITION. The arbiter (R56 to R60, R233, R241 to R247): what runs next, and what surrounds a command that runs. One
step of the machine is one turn: a halt, one TICK of the trigger, one foreground command, or waiting. -/

namespace Sys2Proof.Machine

/-- No firing around a step: what the schedule says after its end. -/
def quietSlot : Slot := { before := false, during := false }

/-- What the trigger does around the coming step (log 2). -/
def nextSlot (s : State) : Slot := s.firings.headD quietSlot

/-- The schedule moves on by one step. -/
def dropSlot (s : State) : State := { s with firings := s.firings.tail }

/-- The next presented word is taken. -/
def dropCommand (s : State) : State := { s with commands := s.commands.tail }

/-- A firing is held or arrives: the coming step runs a TICK of the trigger (R243, R244). -/
def tickDue (s : State) : Bool := s.tickPending || (nextSlot s).before

/-- The turn of one step, with the state it starts in. -/
inductive Turn where
  /-- FAULT is not 0: nothing executes (R233) -/
  | halted (c : FaultCode)
  /-- a TICK in the tick context, and whether the trigger fires during it (R241, R243) -/
  | tick (fired : Bool) (t : State)
  /-- the next foreground command, and whether the trigger fires during it (R243) -/
  | issue (w : Word) (fired : Bool) (t : State)
  /-- no command is presented: the block waits (R272) -/
  | wait (t : State)
  deriving DecidableEq, Repr

/-- The choice: a halt lets nothing run (R233); a held or arriving firing runs a TICK before the next foreground command
(R243, R244), a firing that arrives while one is held being lost (R245); else the next command; else the block waits. -/
def arbitrate (s : State) : Turn :=
  match s.fault with
  | some c => .halted c
  | none =>
    if tickDue s then .tick (nextSlot s).during (enterTick (dropSlot s))
    else
      match s.commands with
      | [] => .wait (dropSlot s)
      | w :: _ => .issue w (nextSlot s).during (dropCommand (dropSlot s))

/-- After a foreground command: a firing during it is held (R243), the stream position moves on, and a fault it raised is
recorded with its word and position (R232; log 1, 3). -/
def endCommand (w : Word) (fired : Bool) (s : State) : State :=
  { holdFiring fired s with
    position := s.position + 1
    faulting := if halted s then some { word := w, position := s.position } else none }

/-- One foreground word: a command that decodes runs, a word that does not raises the fault that rejects it (R78, R230). -/
def runWord (run : Instr → State → Result) (w : Word) (t : State) : Result :=
  match decode w with
  | .instr i => run i t
  | .reject c => .next (raiseFault c t)

/-- One step, with the effect of each command given. -/
def takeTurn (run : Instr → State → Result) (s : State) : Result :=
  match arbitrate s with
  | .halted c => .fault (.halted c s.faulting)
  | .tick fired t => mapNext (fun u => holdFiring fired (returnFromTick u)) (run .tick t)
  | .issue w fired t => mapNext (endCommand w fired) (runWord run w t)
  | .wait t => .next t

/-- The state with a word presented so that the very next step runs it: at the front of the stream, no firing before or
during that step, no fault (log 11). -/
def presentWord (w : Word) (s : State) : State :=
  { s with
    commands := w :: s.commands
    firings := quietSlot :: s.firings
    tickPending := false
    fault := none
    faulting := none }

end Sys2Proof.Machine
end

