-- ==== Sys2Proof/Machine/Rom.lean ====
section
/-! DEFINITION. The segment encoder ROM (R100 to R104) and ENC (R102). -/

namespace Sys2Proof

/-- ROM entry `v` under a value of the parameter: entry 0 is 0x3F (R101) and bit 7 is clear (R103). -/
def SegRom.entry (rom : SegRom) (v : BitVec 4) : Byte :=
  match v.toNat with
  | 0 => 0x3F#8
  | 1 => rom.e1.setWidth 8
  | 2 => rom.e2.setWidth 8
  | 3 => rom.e3.setWidth 8
  | 4 => rom.e4.setWidth 8
  | 5 => rom.e5.setWidth 8
  | 6 => rom.e6.setWidth 8
  | 7 => rom.e7.setWidth 8
  | 8 => rom.e8.setWidth 8
  | 9 => rom.e9.setWidth 8
  | 10 => rom.e10.setWidth 8
  | 11 => rom.e11.setWidth 8
  | 12 => rom.e12.setWidth 8
  | 13 => rom.e13.setWidth 8
  | 14 => rom.e14.setWidth 8
  | _ => rom.e15.setWidth 8

namespace Machine

/-- The default of SEG_ROM (R101, D4), entries 1 to 15 from general knowledge. PRESUMED (log 8). -/
def segRomDefault : SegRom where
  e1 := 0x06#7
  e2 := 0x5B#7
  e3 := 0x4F#7
  e4 := 0x66#7
  e5 := 0x6D#7
  e6 := 0x7D#7
  e7 := 0x07#7
  e8 := 0x7F#7
  e9 := 0x6F#7
  e10 := 0x77#7
  e11 := 0x7C#7
  e12 := 0x39#7
  e13 := 0x5E#7
  e14 := 0x79#7
  e15 := 0x71#7

/-- The ROM of this block: the parameter at its default (R7). -/
def blockRom : SegRom := segRomDefault

/-- `SegRom(v)` (R100): a pure lookup of a 4-bit digit value. -/
def segRom (v : BitVec 4) : Byte := blockRom.entry v

/-- ENC (R102): responds with the ROM entry, present or absent; DIGIT_RANGE above 15. -/
def execEnc (a : Byte) (s : State) : Result :=
  match digitOperand a with
  | none => .next (raiseFault .digitRange s)
  | some v => .next (respond (segRom v) s)

end Machine

end Sys2Proof
end

