-- ==== Sys2Proof/Machine/Buffers.lean ====
section
/-! DEFINITION. The shared state and the digit buffers (R150 to R157): INIT, SETNUM, SETDP. -/

namespace Sys2Proof.Machine

/-- The creation of the shared state (R150): blank buffers, PTR at D1, every latch UNSPEC without an event, PRESENT set. -/
def createShared (s : State) : State :=
  { unspecAll (writeAllBufs (fun _ => 0x00#8) s) with ptr := .d1, present := true }

/-- INIT (R150): creates the shared state once; REINIT when it is there. -/
def execInit (s : State) : Result :=
  if s.present then .next (raiseFault .reinit s) else .next (createShared s)

/-- The digit at a position, `(value / base^(3-i)) mod base` on naturals (R151). -/
def digitAt (value base : Nat) (p : Position) : Nat := value / base ^ (3 - p.index) % base

/-- The buffer SETNUM stores at a position: the ROM entry of its digit, which is at most 15 for a base up to 16 (R151). -/
def digitMask (rom : SegRom) (value base : Nat) (p : Position) : Byte :=
  rom.entry (BitVec.ofNat 4 (digitAt value base p))

/-- SETNUM (R151): four digits into the four buffers; BASE_RANGE outside 2 to 16, even while absent. -/
def execSetnum (v : Value) (b : Byte) (s : State) : Result :=
  match baseOperand b with
  | none => .next (raiseFault .baseRange s)
  | some base => .next (whenPresent (writeAllBufs (digitMask blockRom (valueOperand v) base)) s)

/-- SETDP (R153): sets bit 7 of one buffer. -/
def execSetdp (a : Byte) (s : State) : Result :=
  .next (whenPresent (fun t => writeBuf (positionOperand a) (readBuf (positionOperand a) t ||| 0x80#8) t) s)

end Sys2Proof.Machine
end

