-- ==== Sys2Proof/Machine/Driver.lean ====
section
/-! DEFINITION. The line driver, RawDisplay (R120 to R131): every command is a no-op while the state is absent (R121) and
fails in no other way than a range fault (R122). -/

namespace Sys2Proof.Machine

/-- DIGEN (R124): enable one digit line. -/
def execDigen (a : Byte) (s : State) : Result :=
  .next (whenPresent (drive (.dig (positionOperand a)) (digitLevel true)) s)

/-- DIGDIS (R125): disable one digit line. -/
def execDigdis (a : Byte) (s : State) : Result :=
  .next (whenPresent (drive (.dig (positionOperand a)) (digitLevel false)) s)

/-- SEGEN (R126): enable one segment line. -/
def execSegen (a : Byte) (s : State) : Result :=
  .next (whenPresent (drive (.seg (segmentOperand a)) (segmentLevel true)) s)

/-- SEGDIS (R127): disable one segment line. -/
def execSegdis (a : Byte) (s : State) : Result :=
  .next (whenPresent (drive (.seg (segmentOperand a)) (segmentLevel false)) s)

/-- DIGDISALL (R128): disable the digit lines, ascending. -/
def execDigdisall (s : State) : Result := .next (whenPresent (driveAll digitsOffWrites) s)

/-- SEGDISALL (R129): disable the segment lines, ascending. -/
def execSegdisall (s : State) : Result := .next (whenPresent (driveAll segmentsOffWrites) s)

/-- APPLY (R130): the mask onto the segment lines, ascending. -/
def execApply (a : Byte) (s : State) : Result := .next (whenPresent (driveAll (maskWrites (maskOperand a))) s)

/-- ENCAPPLY (R131): APPLY of the ROM entry; DIGIT_RANGE above 15, even while absent. -/
def execEncapply (a : Byte) (s : State) : Result :=
  match digitOperand a with
  | none => .next (raiseFault .digitRange s)
  | some v => .next (whenPresent (driveAll (maskWrites (segRom v))) s)

end Sys2Proof.Machine
end

