-- ==== Sys2Proof/Machine/Multiplex.lean ====
section
/-! DEFINITION. The digit multiplexer (R180 to R189): SHOW and TICK. -/

namespace Sys2Proof.Machine

/-- `show(position)` (R180): the thirteen line writes of the position's buffer. -/
def showDigit (p : Position) (s : State) : State := driveAll (showWrites p (readBuf p s)) s

/-- PTR to its cyclic successor (R25, R182). -/
def advance (s : State) : State := { s with ptr := s.ptr.next }

/-- One tick of a present state under a value of TICK_ORDER (R182, R184). -/
def tickBody (order : TickOrder) (s : State) : State :=
  match order with
  | .advanceThenShow => showDigit (advance s).ptr (advance s)
  | .showThenAdvance => advance (showDigit s.ptr s)

/-- TICK_ORDER of this hardware (R184, C2, D26; log 9). -/
def blockTickOrder : TickOrder := .advanceThenShow

/-- SHOW (R180). -/
def execShow (a : Byte) (s : State) : Result := .next (whenPresent (showDigit (positionOperand a)) s)

/-- TICK (R182): a silent no-op while absent. -/
def execTick (s : State) : Result := .next (whenPresent (tickBody blockTickOrder) s)

end Sys2Proof.Machine
end

