-- ==== Sys2Proof/Machine/Pins.lean ====
section
/-! DEFINITION. The pin capability of the 12 lines (R210 to R216): no-ops while absent (R210); LINE_RANGE above 11 (R211). -/

namespace Sys2Proof.Machine

/-- A pin command on its line (R210, R211): `f` where the line exists and the state is present. -/
def onLine (a : Byte) (f : Line → State → State) (s : State) : Result :=
  match lineOperand a with
  | none => .next (raiseFault .lineRange s)
  | some l => .next (whenPresent (f l) s)

/-- PINHI (R213): set-high. -/
def execPinhi (a : Byte) (s : State) : Result := onLine a (fun l => drive l (setHighLevel l)) s

/-- PINLO (R214): set-low. -/
def execPinlo (a : Byte) (s : State) : Result := onLine a (fun l => drive l (setLowLevel l)) s

/-- PINTGL (R215): toggle, the only command that reads a latch. -/
def execPintgl (a : Byte) (s : State) : Result :=
  onLine a (fun l t => drive l (toggledLevel l (readLatch l t)) t) s

end Sys2Proof.Machine
end

