-- ==== Sys2Proof/Machine/Dispatch.lean ====
section
/-! DEFINITION. The effect of each command: one arm per constructor of Instr. -/

namespace Sys2Proof.Machine

def exec (i : Instr) (s : State) : Host.Outcome State Fault Refusal :=
  match i with
  | .init => Sys2Proof.Machine.execInit s
  | .setnum v b => Sys2Proof.Machine.execSetnum v b s
  | .setdp a => Sys2Proof.Machine.execSetdp a s
  | .showPos a => Sys2Proof.Machine.execShow a s
  | .tick => Sys2Proof.Machine.execTick s
  | .digen a => Sys2Proof.Machine.execDigen a s
  | .digdis a => Sys2Proof.Machine.execDigdis a s
  | .segen a => Sys2Proof.Machine.execSegen a s
  | .segdis a => Sys2Proof.Machine.execSegdis a s
  | .digdisall => Sys2Proof.Machine.execDigdisall s
  | .segdisall => Sys2Proof.Machine.execSegdisall s
  | .apply a => Sys2Proof.Machine.execApply a s
  | .encapply a => Sys2Proof.Machine.execEncapply a s
  | .enc a => Sys2Proof.Machine.execEnc a s
  | .pinhi a => Sys2Proof.Machine.execPinhi a s
  | .pinlo a => Sys2Proof.Machine.execPinlo a s
  | .pintgl a => Sys2Proof.Machine.execPintgl a s

end Sys2Proof.Machine
end

