-- ==== Sys2Proof/Machine/Step.lean ====
section
/-! DEFINITION. One step of the machine, and the placing of a word for it to run. -/

namespace Sys2Proof.Machine

/-- One turn of the arbiter with the commands' effects. -/
def step (s : State) : Host.Outcome State Fault Refusal := takeTurn exec s

/-- The state in which the next step runs the table word `w` of `nbits` bits (log 11). -/
def State.withFetchWord (s : State) (nbits w : Nat) : State :=
  presentWord (BitVec.ofNat 64 (w % 2 ^ nbits)) s

end Sys2Proof.Machine
end

