-- ==== Sys2Proof/Machine/Assembler.lean ====
section
/-! DEFINITION. The assembler of R80 and the pseudo-instructions of R81: one line of text to the words it stands for. -/

namespace Sys2Proof

/-- The mnemonic of R76. -/
def Opcode.mnemonic : Opcode → String
  | .init => "INIT"
  | .setnum => "SETNUM"
  | .setdp => "SETDP"
  | .showPos => "SHOW"
  | .tick => "TICK"
  | .digen => "DIGEN"
  | .digdis => "DIGDIS"
  | .segen => "SEGEN"
  | .segdis => "SEGDIS"
  | .digdisall => "DIGDISALL"
  | .segdisall => "SEGDISALL"
  | .apply => "APPLY"
  | .encapply => "ENCAPPLY"
  | .enc => "ENC"
  | .pinhi => "PINHI"
  | .pinlo => "PINLO"
  | .pintgl => "PINTGL"

/-- A pseudo-instruction (R81). -/
inductive Pseudo where
  | setdec (v : Value)
  | sethex (v : Value)
  | setbin (v : Value)
  | blank
  deriving DecidableEq, Repr

/-- The commands a pseudo-instruction stands for, in order (R81). -/
def Pseudo.expand : Pseudo → List Instr
  | .setdec v => [.setnum v 10#8]
  | .sethex v => [.setnum v 16#8]
  | .setbin v => [.setnum v 2#8]
  | .blank => [.digdisall, .segdisall]

namespace Machine

/-! ## Text (R80; white space and letter case: log 15) -/

/-- The text before a comment. -/
def beforeComment (cs : List Char) : List Char := cs.takeWhile (· != ';')

/-- White space. -/
def isBlank (c : Char) : Bool := c == ' ' || c == '\t' || c == '\r' || c == '\n'

/-- Without white space at either end. -/
def trim (cs : List Char) : List Char := ((cs.dropWhile isBlank).reverse.dropWhile isBlank).reverse

/-- The pieces between commas. -/
def splitCommas : List Char → List (List Char)
  | [] => [[]]
  | c :: cs =>
    if c == ',' then [] :: splitCommas cs
    else
      match splitCommas cs with
      | [] => [[c]]
      | p :: ps => (c :: p) :: ps

/-- The operands after the mnemonic. -/
def operandsOf (cs : List Char) : List (List Char) :=
  if (trim cs).isEmpty then [] else (splitCommas cs).map trim

/-! ## Numbers -/

/-- A digit of a base up to 16. -/
def digitValue (base : Nat) (c : Char) : Option Nat :=
  let n := c.toNat
  let d :=
    if 48 ≤ n ∧ n ≤ 57 then n - 48
    else if 97 ≤ n ∧ n ≤ 102 then n - 87
    else if 65 ≤ n ∧ n ≤ 70 then n - 55
    else 16
  if d < base then some d else none

/-- The digits of a number, most significant first, on top of what is read so far. -/
def readDigits (base : Nat) : Nat → List Char → Option Nat
  | n, [] => some n
  | n, c :: cs =>
    match digitValue base c with
    | none => none
    | some d => readDigits base (n * base + d) cs

/-- A decimal number, or a hexadecimal one after 0x. -/
def readNumber : List Char → Option Nat
  | [] => none
  | '0' :: 'x' :: c :: cs => readDigits 16 0 (c :: cs)
  | c :: cs => readDigits 10 0 (c :: cs)

/-- A number of the range 0 to `top`; anything else is refused rather than encoded (R80). -/
def numberUpTo (top : Nat) (cs : List Char) : Option Nat :=
  match readNumber cs with
  | none => none
  | some n => if n ≤ top then some n else none

/-! ## Operands by format (R80) -/

def positionName : Position → String
  | .d1 => "D1"
  | .d2 => "D2"
  | .d3 => "D3"
  | .d4 => "D4"

def segmentName : Segment → String
  | .a => "A"
  | .b => "B"
  | .c => "C"
  | .d => "D"
  | .e => "E"
  | .f => "F"
  | .g => "G"
  | .dp => "DP"

def lineName : Line → String
  | .seg sg => "SEG." ++ segmentName sg
  | .dig p => "DIG." ++ positionName p

/-- Format P: D1 to D4, or 0 to 255. -/
def positionText (cs : List Char) : Option Nat :=
  match Position.all.find? fun p => (positionName p).toList == cs with
  | some p => some p.index
  | none => numberUpTo 255 cs

/-- Format G: A to G, DP, or 0 to 255. -/
def segmentText (cs : List Char) : Option Nat :=
  match Segment.all.find? fun sg => (segmentName sg).toList == cs with
  | some sg => some sg.index
  | none => numberUpTo 255 cs

/-- Format L: SEG.A to SEG.DP, DIG.D1 to DIG.D4, or 0 to 11. -/
def lineText (cs : List Char) : Option Nat :=
  match Line.all.find? fun l => (lineName l).toList == cs with
  | some l => some l.number
  | none => numberUpTo 11 cs

/-- A command with operand A alone. -/
def withA (o : Opcode) (a : Option Nat) : Option Instr :=
  a.map fun n => o.make (BitVec.ofNat 8 n) 0#8 0#32

/-- A command from its operand texts. The base is any byte: the decoder checks it (R80). -/
def assembleCommand (o : Opcode) (ops : List (List Char)) : Option Instr :=
  match o.format, ops with
  | .n, [] => some (o.make 0#8 0#8 0#32)
  | .p, [x] => withA o (positionText x)
  | .g, [x] => withA o (segmentText x)
  | .m, [x] => withA o (numberUpTo 255 x)
  | .d, [x] => withA o (numberUpTo 15 x)
  | .l, [x] => withA o (lineText x)
  | .s, [x, y] =>
    match numberUpTo 4294967295 x, numberUpTo 255 y with
    | some v, some b => some (o.make 0#8 (BitVec.ofNat 8 b) (BitVec.ofNat 32 v))
    | _, _ => none
  | _, _ => none

/-- A pseudo-instruction from its mnemonic and operand texts (R81). -/
def assemblePseudo (name : List Char) (ops : List (List Char)) : Option Pseudo :=
  match ops with
  | [] => if name == "BLANK".toList then some .blank else none
  | [x] =>
    match numberUpTo 4294967295 x with
    | none => none
    | some v =>
      if name == "SETDEC".toList then some (.setdec (BitVec.ofNat 32 v))
      else if name == "SETHEX".toList then some (.sethex (BitVec.ofNat 32 v))
      else if name == "SETBIN".toList then some (.setbin (BitVec.ofNat 32 v))
      else none
  | _ => none

/-- The words of one line of source text: none for an empty line or a comment; `none` where the assembler refuses (R80). -/
def assembleLine (text : String) : Option (List Word) :=
  let line := trim (beforeComment text.toList)
  let name := line.takeWhile fun c => !isBlank c
  let ops := operandsOf (line.dropWhile fun c => !isBlank c)
  if line.isEmpty then some []
  else
    match Opcode.all.find? fun o => o.mnemonic.toList == name with
    | some o => (assembleCommand o ops).map fun i => [encode i]
    | none => (assemblePseudo name ops).map fun q => q.expand.map encode

end Machine

end Sys2Proof
end

