-- ==== Sys2Proof/Machine/Observe.lean ====
section
/-! DEFINITION. What is seen of the block from outside (R30, R59, D29): the lighting of a segment, and the level of a line
at a point of the line trace. Nothing here is read by a command. -/

namespace Sys2Proof.Machine

/-- What is known of a segment of a digit (R30). -/
inductive Lighting where
  | lit
  | dark
  /-- a latch is UNSPEC: both lit and dark must be admitted -/
  | unknown
  deriving DecidableEq, Repr

/-- R30, word for word: lit exactly when the digit is High and the segment Low; unknown when either latch is UNSPEC. -/
def lighting (p : Position) (sg : Segment) (s : State) : Lighting :=
  match readLatch (.dig p) s, readLatch (.seg sg) s with
  | .unspec, _ => .unknown
  | _, .unspec => .unknown
  | .high, .low => .lit
  | _, _ => .dark

/-- Can any levels in place of the UNSPEC ones light the segment (R30, R128, R275; log 7)? -/
def mayBeLit (p : Position) (sg : Segment) (s : State) : Bool :=
  (readLatch (.dig p) s == .high || readLatch (.dig p) s == .unspec)
    && (readLatch (.seg sg) s == .low || readLatch (.seg sg) s == .unspec)

/-- The level of a line after a sequence of line writes that it entered at `before` (R27, R31, R59). -/
def levelAfter (l : Line) (before : Level) (es : List LineEvent) : Level :=
  es.foldl (fun v e => if e.line = l then e.level else v) before

/-- The pattern a mask puts on the segment lines (R185). -/
def patternLevel (m : Byte) (sg : Segment) : Level := segmentLevel (maskBit m sg)

end Sys2Proof.Machine
end

