-- ==== Sys2Proof/Safety.lean ====
section
/-! DEFINITION. The terms claims are stated in: what stays as it was (frames), the invariant of the machine, running a list
of commands, and the hazards the spec warns of. -/

namespace Sys2Proof.Machine

/-! ## Frames: what two states have in common -/

/-- Every buffer reads the same. -/
def SameBuffers (s t : State) : Prop := ∀ p, readBuf p t = readBuf p s

/-- PRESENT, PTR and every buffer. -/
def SameShared (s t : State) : Prop := t.present = s.present ∧ t.ptr = s.ptr ∧ SameBuffers s t

/-- Every latch and the trace. -/
def SameLines (s t : State) : Prop := (∀ l, readLatch l t = readLatch l s) ∧ t.trace = s.trace

/-- TICK_PENDING, CTX, and the model's inputs and fault record. -/
def SameInputs (s t : State) : Prop :=
  t.tickPending = s.tickPending ∧ t.ctx = s.ctx ∧ t.commands = s.commands ∧ t.position = s.position
    ∧ t.firings = s.firings ∧ t.faulting = s.faulting

/-- FAULT, the responses, and the rest that no command but its own writes. -/
def SameStatus (s t : State) : Prop := t.fault = s.fault ∧ t.responses = s.responses ∧ SameInputs s t

/-- R230: only FAULT differs, and it holds the code. -/
def OnlyFaults (c : FaultCode) (s t : State) : Prop :=
  t.fault = some c ∧ SameShared s t ∧ SameLines s t ∧ t.responses = s.responses ∧ SameInputs s t

/-- The block's own state as a command leaves it and nothing else sees it: PRESENT, the buffers, PTR, the latches, the trace,
FAULT and the responses (D29). -/
def SameBlock (s t : State) : Prop :=
  SameShared s t ∧ SameLines s t ∧ t.fault = s.fault ∧ t.responses = s.responses

/-! ## Encoding claims: what the words of an opcode decode to (R71, R72, R75, R77) -/

/-- Format N: every operand field is zero. -/
def SpelledN (op : Byte) (i : Instr) : Prop :=
  ∀ a b z v, decode (assemble op a b z v)
    = if a = 0#8 ∧ b = 0#8 ∧ z = 0#8 ∧ v = 0#32 then .instr i else .reject .reservedNonzero

/-- Formats P, G and M: any operand A; the other fields are zero. -/
def SpelledA (op : Byte) (f : Byte → Instr) : Prop :=
  ∀ a b z v, decode (assemble op a b z v)
    = if b = 0#8 ∧ z = 0#8 ∧ v = 0#32 then .instr (f a) else .reject .reservedNonzero

/-- Formats D and L: operand A up to `top`, beyond it the fault `c`; the other fields are zero. -/
def SpelledUpTo (op : Byte) (top : Nat) (c : FaultCode) (f : Byte → Instr) : Prop :=
  ∀ a b z v, decode (assemble op a b z v)
    = if b = 0#8 ∧ z = 0#8 ∧ v = 0#32 then (if a.toNat ≤ top then .instr (f a) else .reject c)
      else .reject .reservedNonzero

/-- Format S: a base of 2 to 16 and any value; `a` and `z` are zero. -/
def SpelledS (op : Byte) (f : Value → Byte → Instr) : Prop :=
  ∀ a b z v, decode (assemble op a b z v)
    = if a = 0#8 ∧ z = 0#8 then (if 2 ≤ b.toNat ∧ b.toNat ≤ 16 then .instr (f v b) else .reject .baseRange)
      else .reject .reservedNonzero

/-! ## What line commands do -/

/-- The events `es` are the command's line writes from `s` to `t`: appended to the trace in order, the latches following them, and
nothing else changed. -/
def Writes (es : List LineEvent) (s t : State) : Prop :=
  t.trace = s.trace ++ es ∧ (∀ l, readLatch l t = levelAfter l (readLatch l s) es) ∧ SameShared s t ∧ SameStatus s t

/-! ## The invariant -/

/-- The levels a line can hold (R27, R28, R32): a segment line is never driven high, a digit line never released. -/
def LegalLevel (l : Line) (v : Level) : Prop :=
  match l with
  | .seg _ => v ≠ .high
  | .dig _ => v ≠ .released

/-- What a buffer of a present state holds (R154). -/
def LegalBuffer (m : Byte) : Prop :=
  m = 0x00#8 ∨ m = 0x80#8 ∨ ∃ d : BitVec 4, m = segRom d ∨ m = segRom d ||| 0x80#8

/-- The invariant of the machine: what every step keeps and the state after reset has. -/
structure Inv (s : State) : Prop where
  /-- R154 -/
  buffers : s.present = true → ∀ p, LegalBuffer (readBuf p s)
  /-- R27, R31: a latch holds the level of the line's last event, UNSPEC where there is none -/
  latches : ∀ l, readLatch l s = levelAfter l .unspec s.trace
  /-- R27, R28, R31: no event drives a segment line high or releases a digit line -/
  events : ∀ e ∈ s.trace, LegalLevel e.line e.level
  /-- R121, R210, R240: nothing is written to a line while the state is absent -/
  absent : s.present = false → s.trace = []
  /-- R102, R103: no response has bit 7 set -/
  responses : ∀ m ∈ s.responses, m.getLsbD 7 = false
  /-- R247: between two steps the context is the foreground -/
  context : s.ctx = .fg
  /-- R232, log 3: a fault has its record, and nothing else has one -/
  record : s.faulting.isSome = s.fault.isSome

/-! ## Safe runs -/

/-- The block is running: no fault has halted it (R233). -/
def Running (s : State) : Prop := s.fault = none

/-- The trigger's schedule says it fires before each of the next `k` steps and during none of them, then `rest`. -/
def ticksThen (k : Nat) (rest : List Slot) : List Slot :=
  List.replicate k { before := true, during := false } ++ rest

/-- A list of commands, one after another, as far as each answers a next state. -/
def runCommands : List Instr → State → Result
  | [], s => .next s
  | i :: is, s =>
    match exec i s with
    | .next t => runCommands is t
    | .fault r => .fault r
    | .refused r => .refused r

/-- At most one digit line is High (R189). -/
def AtMostOneDigitHigh (level : Line → Level) : Prop :=
  ∀ p q, level (.dig p) = .high → level (.dig q) = .high → p = q

/-- Every digit line is enabled or disabled, none UNSPEC. -/
def DigitsKnown (s : State) : Prop := ∀ p, readLatch (.dig p) s ≠ .unspec

/-- Some digit line is High. -/
def someDigitHigh (s : State) : Bool := Position.all.any fun p => readLatch (.dig p) s == .high

/-- The commands of R281 when they write a segment line. -/
def writesSegments : Instr → Bool
  | .segen _ | .segdis _ | .apply _ | .encapply _ => true
  | .pinhi a | .pinlo a | .pintgl a => decide (a.toNat < 8)
  | .init | .setnum _ _ | .setdp _ | .showPos _ | .tick | .digen _ | .digdis _ | .digdisall | .segdisall | .enc _ => false

/-- R281: the segment lines change while a digit is lit. A hazard, not a fault. -/
def crossTalkHazard (i : Instr) (s : State) : Bool := s.present && someDigitHigh s && writesSegments i

/-- The digit that a command of R282 enables. -/
def enablesDigit : Instr → Option Position
  | .digen a => some (positionOperand a)
  | .pinhi a =>
    match lineOperand a with
    | some (.dig p) => some p
    | some (.seg _) => none
    | none => none
  | .init | .setnum _ _ | .setdp _ | .showPos _ | .tick | .digdis _ | .segen _ | .segdis _ | .digdisall | .segdisall
  | .apply _ | .encapply _ | .enc _ | .pinlo _ | .pintgl _ => none

/-- R282: a digit is enabled while another is High. A hazard, not a fault. -/
def twoDigitsHazard (i : Instr) (s : State) : Bool :=
  match enablesDigit i with
  | none => false
  | some p => s.present && Position.all.any fun q => q != p && readLatch (.dig q) s == .high

end Sys2Proof.Machine
end

