-- ==== Sys2Proof/Certificates/Slice0/Obligations.lean ====
section
/-! DEFINITION. The statements made of this model, from the numbered rules of spec/. -/

open Sys2Proof Sys2Proof.Machine

/-! ## Encoding -/

/-- R82: the worked encodings, as the assembler spells them, as the encoder does, and as the decoder reads them. -/
def Obligations.WorkedEncodings : Prop :=
  ∀ e ∈ ([("INIT", 0x0100000000000000#64, .init),
      ("SETNUM 42, 10", 0x02000A000000002A#64, .setnum 42#32 10#8),
      ("SETDP D2", 0x0301000000000000#64, .setdp 1#8),
      ("SHOW D4", 0x0403000000000000#64, .showPos 3#8),
      ("TICK", 0x0500000000000000#64, .tick),
      ("SEGEN G", 0x1206000000000000#64, .segen 6#8),
      ("APPLY 0x3F", 0x163F000000000000#64, .apply 0x3F#8),
      ("ENC 0xA", 0x200A000000000000#64, .enc 0x0A#8),
      ("PINTGL DIG.D4", 0x320B000000000000#64, .pintgl 11#8)] : List (String × Word × Instr)),
    assembleLine e.1 = some [e.2.1] ∧ encode e.2.2 = e.2.1 ∧ decode e.2.1 = .instr e.2.2

/-- R81: the pseudo-instructions, for every value, and BLANK. -/
def Obligations.PseudoInstructionsExpand : Prop :=
  (∀ v : Value,
    (Pseudo.setdec v).expand.map encode = [assemble 0x02#8 0#8 10#8 0#8 v]
      ∧ (Pseudo.sethex v).expand.map encode = [assemble 0x02#8 0#8 16#8 0#8 v]
      ∧ (Pseudo.setbin v).expand.map encode = [assemble 0x02#8 0#8 2#8 0#8 v])
    ∧ Pseudo.blank.expand = [.digdisall, .segdisall]
    ∧ assembleLine "BLANK" = some [0x1400000000000000#64, 0x1500000000000000#64]
    ∧ assembleLine "SETDEC 42" = some [0x02000A000000002A#64]
    ∧ assembleLine "SETHEX 0x1BEEF" = some [0x020010000001BEEF#64]
    ∧ assembleLine "SETBIN 7" = some [0x0200020000000007#64]

/-- R80 in part: every operand name of the formats P, G and L, with sample lines of comments and of refusals (the numbers and their
ranges stand in AssemblerRangesNumbers). White
space and letter case beyond R80 are the model's conventions (log 15, DESIGN CHOICE). -/
def Obligations.AssemblerReadsNames : Prop :=
  (∀ (o : Opcode) (p : Position), o.format = .p →
    assembleLine (o.mnemonic ++ " " ++ positionName p)
      = some [assemble o.byte (BitVec.ofNat 8 p.index) 0#8 0#8 0#32])
    ∧ (∀ (o : Opcode) (sg : Segment), o.format = .g →
      assembleLine (o.mnemonic ++ " " ++ segmentName sg)
        = some [assemble o.byte (BitVec.ofNat 8 sg.index) 0#8 0#8 0#32])
    ∧ (∀ (o : Opcode) (l : Line), o.format = .l →
      assembleLine (o.mnemonic ++ " " ++ lineName l)
        = some [assemble o.byte (BitVec.ofNat 8 l.number) 0#8 0#8 0#32])
    ∧ assembleLine "TICK ; advance" = some [0x0500000000000000#64]
    ∧ assembleLine "; a comment" = some []
    ∧ assembleLine "SETNUM 5, 17" = some [0x0200110000000005#64]
    ∧ assembleLine "ENC 16" = none
    ∧ assembleLine "PINHI 12" = none
    ∧ assembleLine "SHOW 256" = none
    ∧ assembleLine "SETNUM 4294967296, 10" = none
    ∧ assembleLine "TICK 1" = none

/-- Decoding the word of a well-formed command gives the command, every operand as it was. -/
def Obligations.DecodeEncodeRoundTrip : Prop :=
  ∀ i : Instr, i.wf = true → decode (encode i) = .instr i

/-- A word that decodes is the word of the command it decodes to, and that command is well-formed: no second spelling. -/
def Obligations.EncodeDecodeRoundTrip : Prop :=
  ∀ (w : Word) (i : Instr), decode w = .instr i → encode i = w ∧ i.wf = true

/-- R76: a word matches a row of the table exactly when its `op` is the row's and its must-be-zero fields are zero; so it
matches at most one row. -/
def Obligations.OpcodeMapIsUnambiguous : Prop :=
  (∀ (o : Opcode) (w : Word), o.spells w = true ↔ opField w = o.byte ∧ o.format.reservedZero w = true)
    ∧ ∀ (o o' : Opcode) (w : Word), o.spells w = true → o'.spells w = true → o = o'

/-- R75, R77, R78: every word is decoded in the order of the three checks; a word that fails one faults with that check's code
whatever PRESENT is, changing nothing but FAULT; and a word that passes all three is a command. -/
def Obligations.DecodeOrderAndFaults : Prop :=
  ∀ w : Word,
    ((∀ o : Opcode, opField w ≠ o.byte) → decode w = .reject .illegalOpcode)
    ∧ (∀ o : Opcode, opField w = o.byte →
      (o.spells w = false → decode w = .reject .reservedNonzero)
      ∧ (o.spells w = true →
        (o.format = .d → 15 < (aField w).toNat → decode w = .reject .digitRange)
        ∧ (o.format = .l → 11 < (aField w).toNat → decode w = .reject .lineRange)
        ∧ (o.format = .s → ((bField w).toNat < 2 ∨ 16 < (bField w).toNat) → decode w = .reject .baseRange)
        ∧ ((o.format = .d → (aField w).toNat ≤ 15) → (o.format = .l → (aField w).toNat ≤ 11) →
          (o.format = .s → 2 ≤ (bField w).toNat ∧ (bField w).toNat ≤ 16) →
          decode w = .instr (o.make (aField w) (bField w) (vField w)))))
    ∧ decode 0#64 = .reject .illegalOpcode
    ∧ ∀ c, decode w = .reject c → ∀ s, ∃ t, runWord exec w s = .next t ∧ OnlyFaults c s t

/-- R26: the index conversions are total and cyclic, index 0 is D1 and A, and operands are read through them. -/
def Obligations.IndexConversions : Prop :=
  (∀ i : Nat, (Position.ofIndex i).index = i % 4 ∧ (Segment.ofIndex i).index = i % 8)
    ∧ (∀ p : Position, Position.ofIndex p.index = p) ∧ (∀ sg : Segment, Segment.ofIndex sg.index = sg)
    ∧ Position.ofIndex 0 = .d1 ∧ Position.ofIndex 1 = .d2 ∧ Position.ofIndex 2 = .d3 ∧ Position.ofIndex 3 = .d4
    ∧ Segment.all.map Segment.index = [0, 1, 2, 3, 4, 5, 6, 7] ∧ Segment.ofIndex 0 = .a ∧ Segment.ofIndex 7 = .dp
    ∧ ∀ a : Byte, positionOperand a = Position.ofIndex a.toNat ∧ segmentOperand a = Segment.ofIndex a.toNat

/-- R74: every operand byte is legal in the formats P and G, and one above the range does what its residue does. -/
def Obligations.OperandAliases : Prop :=
  ∀ a : Byte,
    (∀ i ∈ [Instr.setdp a, .showPos a, .digen a, .digdis a, .segen a, .segdis a], decode (encode i) = .instr i)
    ∧ ∀ s : State,
      (∀ f ∈ [Instr.setdp, Instr.showPos, Instr.digen, Instr.digdis], exec (f a) s = exec (f (a % 4#8)) s)
      ∧ (∀ f ∈ [Instr.segen, Instr.segdis], exec (f a) s = exec (f (a % 8#8)) s)

/-- R25: the cyclic successor. -/
def Obligations.NextIsCyclic : Prop :=
  Position.next .d1 = .d2 ∧ Position.next .d2 = .d3 ∧ Position.next .d3 = .d4 ∧ Position.next .d4 = .d1
    ∧ ∀ p : Position, p.next.index = (p.index + 1) % 4 ∧ p.next.next.next.next = p

/-! ## The ROM -/

/-- R101: the contents of the ROM as ENC responds them; entries 1 to 15 are the default of SEG_ROM (log 8, PRESUMED). -/
def Obligations.RomContents : Prop :=
  ∀ (s : State) (k : Nat), k < 16 →
    ∃ t, exec (.enc (BitVec.ofNat 8 k)) s = .next t
      ∧ t.responses = s.responses
          ++ [[0x3F#8, 0x06#8, 0x5B#8, 0x4F#8, 0x66#8, 0x6D#8, 0x7D#8, 0x07#8, 0x7F#8, 0x6F#8, 0x77#8, 0x7C#8, 0x39#8,
              0x5E#8, 0x79#8, 0x71#8].getD k 0#8]

/-- R102: ENC responds with its entry, present or absent, changes nothing else, and faults above 15. The list of responses is the
model's record of the port (log 4, DESIGN CHOICE). -/
def Obligations.EncRule : Prop :=
  SpelledUpTo 0x20#8 15 .digitRange .enc ∧
  ∀ (a : Byte) (s : State),
    (a.toNat ≤ 15 →
      ∃ t, exec (.enc a) s = .next t ∧ t.responses = s.responses ++ [segRom (BitVec.ofNat 4 a.toNat)]
        ∧ (segRom (BitVec.ofNat 4 a.toNat)).getLsbD 7 = false
        ∧ SameShared s t ∧ SameLines s t ∧ t.fault = s.fault ∧ SameInputs s t)
    ∧ (15 < a.toNat → ∃ t, exec (.enc a) s = .next t ∧ OnlyFaults .digitRange s t)

/-- R103 in part: whatever value the parameter SEG_ROM has, entry 0 is 0x3F and bit 7 of every entry is clear. -/
def Obligations.RomDecimalPointClear : Prop :=
  ∀ (rom : SegRom) (v : BitVec 4), (rom.entry v).getLsbD 7 = false ∧ rom.entry 0#4 = 0x3F#8

/-! ## The shared state and the buffers -/

/-- R150: INIT creates the shared state once. -/
def Obligations.InitRule : Prop :=
  SpelledN 0x01#8 .init ∧
  ∀ s : State,
    (s.present = false →
      ∃ t, exec .init s = .next t ∧ t.present = true ∧ (∀ p, readBuf p t = 0x00#8) ∧ t.ptr = .d1
        ∧ (∀ l, readLatch l t = .unspec) ∧ t.trace = s.trace ∧ SameStatus s t)
    ∧ (s.present = true → ∃ t, exec .init s = .next t ∧ OnlyFaults .reinit s t)

/-- R151: SETNUM. -/
def Obligations.SetnumRule : Prop :=
  SpelledS 0x02#8 .setnum ∧
  ∀ (v : Value) (b : Byte) (s : State),
    (2 ≤ b.toNat → b.toNat ≤ 16 → s.present = true →
      ∃ t, exec (.setnum v b) s = .next t
        ∧ (∀ p, v.toNat / b.toNat ^ (3 - p.index) % b.toNat ≤ 15
          ∧ readBuf p t = segRom (BitVec.ofNat 4 (v.toNat / b.toNat ^ (3 - p.index) % b.toNat)))
        ∧ t.present = s.present ∧ t.ptr = s.ptr ∧ SameLines s t ∧ SameStatus s t)
    ∧ (2 ≤ b.toNat → b.toNat ≤ 16 → s.present = false → exec (.setnum v b) s = .next s)
    ∧ (b.toNat < 2 ∨ 16 < b.toNat → ∃ t, exec (.setnum v b) s = .next t ∧ OnlyFaults .baseRange s t)

/-- R152: the four digits are those of the value modulo base^4, their weighted sum is that number, and the truncated value
does what the value does. -/
def Obligations.SetnumArithmeticLaw : Prop :=
  ∀ (v : Value) (b : Byte) (s : State), 2 ≤ b.toNat → b.toNat ≤ 16 → s.present = true →
    ∃ (t : State) (digit : Position → Nat),
      exec (.setnum v b) s = .next t
      ∧ (∀ p, readBuf p t = segRom (BitVec.ofNat 4 (digit p)) ∧ digit p < b.toNat
        ∧ digit p = (v.toNat % b.toNat ^ 4) / b.toNat ^ (3 - p.index) % b.toNat
        ∧ digit p = v.toNat / b.toNat ^ (3 - p.index) % b.toNat)
      ∧ digit .d1 * b.toNat ^ 3 + digit .d2 * b.toNat ^ 2 + digit .d3 * b.toNat + digit .d4 = v.toNat % b.toNat ^ 4
      ∧ (v.toNat < b.toNat ^ 4 →
        digit .d1 * b.toNat ^ 3 + digit .d2 * b.toNat ^ 2 + digit .d3 * b.toNat + digit .d4 = v.toNat)
      ∧ exec (.setnum (BitVec.ofNat 32 (v.toNat % b.toNat ^ 4)) b) s = .next t

/-- R153: SETDP. -/
def Obligations.SetdpRule : Prop :=
  SpelledA 0x03#8 .setdp ∧
  ∀ (a : Byte) (s : State),
    (s.present = true →
      ∃ t, exec (.setdp a) s = .next t
        ∧ (∀ p, readBuf p t = if p.index = a.toNat % 4 then readBuf p s ||| 0x80#8 else readBuf p s)
        ∧ t.present = s.present ∧ t.ptr = s.ptr ∧ SameLines s t ∧ SameStatus s t)
    ∧ (s.present = false → exec (.setdp a) s = .next s)

/-- R155: the buffer commands append nothing, SETNUM and SETDP change no latch, and no command but SHOW and TICK carries the
contents of the buffers to the lines. -/
def Obligations.BufferCommandsTouchNoLine : Prop :=
  (∀ (i : Instr) (s : State), (i = .init ∨ (∃ v b, i = .setnum v b) ∨ (∃ a, i = .setdp a)) →
    ∃ t, exec i s = .next t ∧ t.trace = s.trace ∧ (i ≠ .init → ∀ l, readLatch l t = readLatch l s))
  ∧ ∀ (i : Instr) (s : State) (m : PerDigit Byte), i ≠ .tick → (∀ a, i ≠ .showPos a) →
    ∃ t u, exec i s = .next t ∧ exec i { s with buf := m } = .next u ∧ SameLines t u

/-- R156: SETNUM clears every decimal point, and no other command clears one. -/
def Obligations.DecimalPointLife : Prop :=
  (∀ (v : Value) (b : Byte) (s : State), 2 ≤ b.toNat → b.toNat ≤ 16 → s.present = true →
    ∃ t, exec (.setnum v b) s = .next t ∧ ∀ p, (readBuf p t).getLsbD 7 = false)
  ∧ ∀ (i : Instr) (s : State), s.present = true → (∀ v b, i ≠ .setnum v b) →
    ∃ t, exec i s = .next t ∧ ∀ p, (readBuf p s).getLsbD 7 = true → (readBuf p t).getLsbD 7 = true

/-- R21: PRESENT is 0 after reset, set by INIT alone and cleared by no command. -/
def Obligations.PresentIsSetByInitAlone : Prop :=
  State.reset.present = false ∧
  ∀ (i : Instr) (s : State), ∃ t, exec i s = .next t ∧ t.present = (s.present || decide (i = .init))

/-! ## The line driver and the pins -/

/-- R124 to R127: the single-line driver commands. -/
def Obligations.SingleLineDriverRules : Prop :=
  (SpelledA 0x10#8 .digen ∧ SpelledA 0x11#8 .digdis ∧ SpelledA 0x12#8 .segen ∧ SpelledA 0x13#8 .segdis) ∧
  ∀ (a : Byte) (s : State),
    (s.present = true →
      (∃ t, exec (.digen a) s = .next t ∧ Writes [⟨.dig (Position.ofIndex (a.toNat % 4)), .high⟩] s t)
      ∧ (∃ t, exec (.digdis a) s = .next t ∧ Writes [⟨.dig (Position.ofIndex (a.toNat % 4)), .low⟩] s t)
      ∧ (∃ t, exec (.segen a) s = .next t ∧ Writes [⟨.seg (Segment.ofIndex (a.toNat % 8)), .low⟩] s t)
      ∧ (∃ t, exec (.segdis a) s = .next t ∧ Writes [⟨.seg (Segment.ofIndex (a.toNat % 8)), .released⟩] s t))
    ∧ (s.present = false →
      exec (.digen a) s = .next s ∧ exec (.digdis a) s = .next s ∧ exec (.segen a) s = .next s
        ∧ exec (.segdis a) s = .next s)

/-- R128: DIGDISALL, after which no segment is lit whatever the segment lines hold. That an UNSPEC segment line beside a Low digit line
cannot light the segment (the clause on mayBeLit) is the model's reading of R30 beside R128 (log 7, DEDUCED). -/
def Obligations.DigdisallRule : Prop :=
  SpelledN 0x14#8 .digdisall ∧
  ∀ s : State,
    (s.present = true →
      ∃ t, exec .digdisall s = .next t
        ∧ Writes [⟨.dig .d1, .low⟩, ⟨.dig .d2, .low⟩, ⟨.dig .d3, .low⟩, ⟨.dig .d4, .low⟩] s t
        ∧ ∀ p sg, mayBeLit p sg t = false ∧ lighting p sg t ≠ .lit)
    ∧ (s.present = false → exec .digdisall s = .next s)

/-- R129: SEGDISALL, equal to APPLY of the empty mask. -/
def Obligations.SegdisallRule : Prop :=
  SpelledN 0x15#8 .segdisall ∧
  ∀ s : State,
    (s.present = true →
      ∃ t, exec .segdisall s = .next t
        ∧ Writes [⟨.seg .a, .released⟩, ⟨.seg .b, .released⟩, ⟨.seg .c, .released⟩, ⟨.seg .d, .released⟩,
            ⟨.seg .e, .released⟩, ⟨.seg .f, .released⟩, ⟨.seg .g, .released⟩, ⟨.seg .dp, .released⟩] s t
        ∧ exec (.apply 0x00#8) s = .next t)
    ∧ (s.present = false → exec .segdisall s = .next s)

/-- R130: APPLY, lane by lane and in ascending order; no digit line is written. -/
def Obligations.ApplyRule : Prop :=
  SpelledA 0x16#8 .apply ∧
  ∀ (a : Byte) (s : State),
    (s.present = true →
      ∃ t, exec (.apply a) s = .next t
        ∧ Writes ([Segment.a, .b, .c, .d, .e, .f, .g, .dp].map fun sg =>
            ⟨.seg sg, if a.getLsbD sg.index then .low else .released⟩) s t
        ∧ (∀ sg, readLatch (.seg sg) t = if a.getLsbD sg.index then .low else .released)
        ∧ ∀ p, readLatch (.dig p) t = readLatch (.dig p) s)
    ∧ (s.present = false → exec (.apply a) s = .next s)

/-- R131: ENCAPPLY is APPLY of the ROM entry, always releases the decimal point, and faults above 15 even while absent. -/
def Obligations.EncapplyRule : Prop :=
  SpelledUpTo 0x17#8 15 .digitRange .encapply ∧
  ∀ (a : Byte) (s : State),
    (a.toNat ≤ 15 → s.present = true →
      ∃ t, exec (.encapply a) s = .next t ∧ exec (.apply (segRom (BitVec.ofNat 4 a.toNat))) s = .next t
        ∧ Writes ([Segment.a, .b, .c, .d, .e, .f, .g, .dp].map fun sg =>
            ⟨.seg sg, if (segRom (BitVec.ofNat 4 a.toNat)).getLsbD sg.index then .low else .released⟩) s t
        ∧ readLatch (.seg .dp) t = .released)
    ∧ (a.toNat ≤ 15 → s.present = false → exec (.encapply a) s = .next s)
    ∧ (15 < a.toNat → ∃ t, exec (.encapply a) s = .next t ∧ OnlyFaults .digitRange s t)

/-- R213, R214: set-high and set-low of each of the 12 lines; an open-drain line is released, never driven high. -/
def Obligations.PinSetRules : Prop :=
  (SpelledUpTo 0x30#8 11 .lineRange .pinhi ∧ SpelledUpTo 0x31#8 11 .lineRange .pinlo) ∧
  ∀ (a : Byte) (s : State),
    (∀ l : Line, l.number = a.toNat → s.present = true →
      (∃ t, exec (.pinhi a) s = .next t ∧ Writes [⟨l, if a.toNat < 8 then .released else .high⟩] s t)
      ∧ (∃ t, exec (.pinlo a) s = .next t ∧ Writes [⟨l, .low⟩] s t))
    ∧ (a.toNat ≤ 11 → (∃ l : Line, l.number = a.toNat)
      ∧ (s.present = false → exec (.pinhi a) s = .next s ∧ exec (.pinlo a) s = .next s))
    ∧ (11 < a.toNat →
      (∃ t, exec (.pinhi a) s = .next t ∧ OnlyFaults .lineRange s t)
      ∧ (∃ t, exec (.pinlo a) s = .next t ∧ OnlyFaults .lineRange s t))

/-- R215: toggle of each line; a level neither of the two the line is driven to becomes UNSPEC, and two toggles of a line at
one of the two restore it; no other command reads a latch. -/
def Obligations.PinToggleRule : Prop :=
  SpelledUpTo 0x32#8 11 .lineRange .pintgl ∧
  (∀ (a : Byte) (s : State),
    (∀ sg : Segment, sg.index = a.toNat → s.present = true →
      ∃ t, exec (.pintgl a) s = .next t
        ∧ Writes [⟨.seg sg, if readLatch (.seg sg) s = .low then .released
            else if readLatch (.seg sg) s = .released then .low else .unspec⟩] s t)
    ∧ (∀ p : Position, 8 + p.index = a.toNat → s.present = true →
      ∃ t, exec (.pintgl a) s = .next t
        ∧ Writes [⟨.dig p, if readLatch (.dig p) s = .low then .high
            else if readLatch (.dig p) s = .high then .low else .unspec⟩] s t)
    ∧ (∀ l : Line, l.number = a.toNat → s.present = true → LegalLevel l (readLatch l s) →
      ∃ t, runCommands [.pintgl a, .pintgl a] s = .next t ∧ ∀ k, readLatch k t = readLatch k s)
    ∧ (a.toNat ≤ 11 → s.present = false → exec (.pintgl a) s = .next s)
    ∧ (11 < a.toNat → ∃ t, exec (.pintgl a) s = .next t ∧ OnlyFaults .lineRange s t))
  ∧ ∀ (i : Instr) (s : State) (so : PerSegment Level) (dg : PerDigit Level), (∀ a, i ≠ .pintgl a) →
    ∃ t u, exec i s = .next t ∧ exec i { s with segOut := so, digOut := dg } = .next u
      ∧ u.trace = t.trace ∧ SameShared t u ∧ SameStatus t u
      ∧ ∀ l, readLatch l u = readLatch l t
        ∨ (readLatch l t = readLatch l s ∧ readLatch l u = readLatch l { s with segOut := so, digOut := dg })

/-- R216: every driver command is a sequence of pin commands, latches, trace and all; ENCAPPLY is that of its ROM entry (R131). -/
def Obligations.DriverIsPinSequence : Prop :=
  ∀ (s : State) (a : Byte),
    exec (.digen a) s = exec (.pinhi (BitVec.ofNat 8 (8 + a.toNat % 4))) s
    ∧ exec (.digdis a) s = exec (.pinlo (BitVec.ofNat 8 (8 + a.toNat % 4))) s
    ∧ exec (.segen a) s = exec (.pinlo (BitVec.ofNat 8 (a.toNat % 8))) s
    ∧ exec (.segdis a) s = exec (.pinhi (BitVec.ofNat 8 (a.toNat % 8))) s
    ∧ exec .digdisall s = runCommands ([8#8, 9#8, 10#8, 11#8].map .pinlo) s
    ∧ exec .segdisall s = runCommands ([0#8, 1#8, 2#8, 3#8, 4#8, 5#8, 6#8, 7#8].map .pinhi) s
    ∧ exec (.apply a) s
      = runCommands ([0, 1, 2, 3, 4, 5, 6, 7].map fun k =>
          if a.getLsbD k then .pinlo (BitVec.ofNat 8 k) else .pinhi (BitVec.ofNat 8 k)) s
    ∧ (a.toNat ≤ 15 → exec (.encapply a) s
      = runCommands ([0, 1, 2, 3, 4, 5, 6, 7].map fun k =>
          if (segRom (BitVec.ofNat 4 a.toNat)).getLsbD k then .pinlo (BitVec.ofNat 8 k)
          else .pinhi (BitVec.ofNat 8 k)) s)

/-- R31, R57, R212: a command appends at most 13 events, each at a level its line can hold, UNSPEC only from a toggle, and the
latches follow them; INIT alone changes a latch without an event. -/
def Obligations.LinesFollowTheTrace : Prop :=
  ∀ (i : Instr) (s : State),
    ∃ t es, exec i s = .next t ∧ t.trace = s.trace ++ es ∧ es.length ≤ 13
      ∧ (∀ e ∈ es, LegalLevel e.line e.level ∧ (e.level = .unspec → ∃ a, i = .pintgl a))
      ∧ (i ≠ .init → ∀ l, readLatch l t = levelAfter l (readLatch l s) es)

/-! ## The multiplexer -/

/-- R180, R181: SHOW makes its thirteen line writes in the mandatory order and changes nothing else, PTR included. -/
def Obligations.ShowRule : Prop :=
  SpelledA 0x04#8 .showPos ∧
  ∀ (a : Byte) (s : State) (p : Position), p.index = a.toNat % 4 →
    (s.present = true →
      ∃ t, exec (.showPos a) s = .next t
        ∧ Writes ([⟨.dig .d1, .low⟩, ⟨.dig .d2, .low⟩, ⟨.dig .d3, .low⟩, ⟨.dig .d4, .low⟩]
            ++ ([Segment.a, .b, .c, .d, .e, .f, .g, .dp].map fun sg =>
              ⟨.seg sg, if (readBuf p s).getLsbD sg.index then .low else .released⟩)
            ++ [⟨.dig p, .high⟩]) s t)
    ∧ (s.present = false → exec (.showPos a) s = .next s)

/-- R182: TICK advances PTR and shows the digit it then names; a silent no-op while absent. -/
def Obligations.TickRule : Prop :=
  SpelledN 0x05#8 .tick ∧
  ∀ s : State,
    (s.present = true →
      ∃ t es, exec .tick s = .next t ∧ t.ptr = s.ptr.next ∧ t.present = s.present ∧ SameBuffers s t
        ∧ es = [⟨.dig .d1, .low⟩, ⟨.dig .d2, .low⟩, ⟨.dig .d3, .low⟩, ⟨.dig .d4, .low⟩]
            ++ ([Segment.a, .b, .c, .d, .e, .f, .g, .dp].map fun sg =>
              ⟨.seg sg, if (readBuf t.ptr s).getLsbD sg.index then .low else .released⟩)
            ++ [⟨.dig t.ptr, .high⟩]
        ∧ t.trace = s.trace ++ es ∧ (∀ l, readLatch l t = levelAfter l (readLatch l s) es) ∧ SameStatus s t)
    ∧ (s.present = false → exec .tick s = .next s)

/-- R185: after SHOW or a present TICK exactly one digit is lit and it shows its buffer. -/
def Obligations.ShownDigitAlone : Prop :=
  ∀ (i : Instr) (s : State) (p : Position), s.present = true →
    ((∃ a, i = .showPos a ∧ p.index = a.toNat % 4) ∨ (i = .tick ∧ p = s.ptr.next)) →
    ∃ t, exec i s = .next t ∧ readLatch (.dig p) t = .high ∧ (∀ q, q ≠ p → readLatch (.dig q) t = .low)
      ∧ (∀ sg, readLatch (.seg sg) t = if (readBuf p s).getLsbD sg.index then .low else .released)
      ∧ ∀ q sg, lighting q sg t = if q = p ∧ (readBuf p s).getLsbD sg.index = true then .lit else .dark

/-- R186: along the thirteen line writes of SHOW (and of a TICK's show) no digit is enabled with a pattern that is neither the
one before nor, for the shown digit, its buffer. -/
def Obligations.ShowIsGlitchFree : Prop :=
  ∀ (i : Instr) (s : State) (p : Position), s.present = true →
    ((∃ a, i = .showPos a ∧ p.index = a.toNat % 4) ∨ (i = .tick ∧ p = s.ptr.next)) →
    ∃ t es, exec i s = .next t ∧ t.trace = s.trace ++ es ∧ es.length = 13 ∧
      ∀ k ≤ 13,
        (k ≤ 4 → ∀ sg, levelAfter (.seg sg) (readLatch (.seg sg) s) (es.take k) = readLatch (.seg sg) s)
        ∧ (4 ≤ k → k ≤ 12 → ∀ q, levelAfter (.dig q) (readLatch (.dig q) s) (es.take k) = .low)
        ∧ (12 ≤ k → ∀ sg, levelAfter (.seg sg) (readLatch (.seg sg) s) (es.take k)
          = if (readBuf p s).getLsbD sg.index then .low else .released)
        ∧ ∀ q, levelAfter (.dig q) (readLatch (.dig q) s) (es.take k) = .high →
          (∀ sg, levelAfter (.seg sg) (readLatch (.seg sg) s) (es.take k) = readLatch (.seg sg) s)
          ∨ (q = p ∧ ∀ sg, levelAfter (.seg sg) (readLatch (.seg sg) s) (es.take k)
            = if (readBuf p s).getLsbD sg.index then .low else .released)

/-- R189 in part: where TICK is the only command that writes lines, at most one digit line is High at every point of the trace, however many
commands run, from any state in which that holds. The rule speaks of the time after the first TICK; here a start whose digit lines are
UNSPEC is admitted too, and UNSPEC is a level of its own, which does not count as High (log 6, DEDUCED). Where every digit line is known
at the start it is known at every point, so that at most one is enabled whatever UNSPEC stands for; and after a present TICK, which
leaves every digit line known, that is so. -/
def Obligations.TicksKeepOneDigitHigh : Prop :=
  ∀ (cs : List Instr) (s : State),
    (∀ i ∈ cs, i = .tick ∨ (∃ v b, i = .setnum v b) ∨ (∃ a, i = .setdp a) ∨ (∃ a, i = .enc a)) →
    AtMostOneDigitHigh (fun l => readLatch l s) →
    ∃ t es, runCommands cs s = .next t ∧ t.trace = s.trace ++ es
      ∧ (∀ l, readLatch l t = levelAfter l (readLatch l s) es)
      ∧ (∀ k ≤ es.length, AtMostOneDigitHigh (fun l => levelAfter l (readLatch l s) (es.take k)))
      ∧ (DigitsKnown s → ∀ k ≤ es.length, ∀ p, levelAfter (.dig p) (readLatch (.dig p) s) (es.take k) ≠ .unspec)
      ∧ (s.present = true → .tick ∈ cs → DigitsKnown t)

/-- R187: `k` present TICKs rotate PTR by `k`, whatever well-formed commands other than INIT run between them, and each TICK shows the
digit PTR then names with what its buffer holds; from D1, where INIT leaves it, PTR is at `k mod 4`. -/
def Obligations.TicksRotateTheDisplay : Prop :=
  (∀ (k : Nat) (s : State), s.present = true →
    ∃ t, runCommands (List.replicate k .tick) s = .next t
      ∧ t.ptr.index = (s.ptr.index + k) % 4 ∧ (s.ptr = .d1 → t.ptr.index = k % 4)
      ∧ t.trace.length = s.trace.length + 13 * k ∧ t.present = true ∧ SameBuffers s t
      ∧ (0 < k → (∀ q, readLatch (.dig q) t = if q = t.ptr then .high else .low)
        ∧ ∀ sg, readLatch (.seg sg) t = if (readBuf t.ptr s).getLsbD sg.index then .low else .released))
  ∧ (∀ (cs : List Instr) (s : State), s.present = true → (∀ i ∈ cs, i.wf = true ∧ i ≠ .init) →
    ∃ t u, runCommands cs s = .next t ∧ t.present = true ∧ t.fault = s.fault
      ∧ t.ptr.index = (s.ptr.index + cs.count .tick) % 4
      ∧ runCommands (cs ++ [.tick]) s = .next u ∧ SameBuffers t u
      ∧ u.ptr.index = (s.ptr.index + (cs.count .tick + 1)) % 4
      ∧ (∀ q, readLatch (.dig q) u = if q = u.ptr then .high else .low)
      ∧ ∀ sg, readLatch (.seg sg) u = if (readBuf u.ptr t).getLsbD sg.index then .low else .released)
  ∧ ∀ (cs : List Instr) (s : State), s.present = false → (∀ i ∈ cs, i.wf = true ∧ i ≠ .init) →
    ∃ t u, runCommands (.init :: cs) s = .next t ∧ t.ptr.index = cs.count .tick % 4
      ∧ runCommands (.init :: (cs ++ [.tick])) s = .next u ∧ u.ptr.index = (cs.count .tick + 1) % 4
      ∧ ∀ q, readLatch (.dig q) u = if q = u.ptr then .high else .low

/-- R188, R283: within four firings of the trigger every digit is shown with what its buffer held; the schedule of firings is
the model's input (log 2, DESIGN CHOICE). -/
def Obligations.EveryDigitShownWithinFourTicks : Prop :=
  ∀ (s : State) (rest : List Slot) (p : Position), Running s → s.present = true → s.tickPending = false →
    s.firings = ticksThen 4 rest →
    ∃ j, 1 ≤ j ∧ j ≤ 4 ∧ ∃ t : State, Host.Core.run Sys2Proof.core j s = .next t
      ∧ readLatch (.dig p) t = .high
      ∧ ∀ sg, readLatch (.seg sg) t = if (readBuf p s).getLsbD sg.index then .low else .released

/-- R24: INIT and TICK alone write PTR, TICK alone reads it. -/
def Obligations.PtrIsTheTicksAlone : Prop :=
  (∀ s : State, s.present = true → ∃ t, exec .tick s = .next t ∧ t.ptr = s.ptr.next)
  ∧ (∀ s : State, s.present = false → ∃ t, exec .init s = .next t ∧ t.ptr = .d1)
  ∧ ∀ (i : Instr) (s : State) (q : Position), i ≠ .tick → ¬ (i = .init ∧ s.present = false) →
    ∃ t, exec i s = .next t ∧ t.ptr = s.ptr ∧ exec i { s with ptr := q } = .next { t with ptr := q }

/-- R184: this block's order is advance-then-show; the other order shows PTR first, so that the first TICK after INIT shows D1. -/
def Obligations.TickOrderVariants : Prop :=
  blockTickOrder = .advanceThenShow ∧
  ∀ s : State,
    (tickBody .showThenAdvance s).ptr = s.ptr.next
      ∧ (tickBody .showThenAdvance s).trace = s.trace ++ showWrites s.ptr (readBuf s.ptr s)
      ∧ (tickBody .advanceThenShow s).ptr = s.ptr.next
      ∧ (tickBody .advanceThenShow s).trace = s.trace ++ showWrites s.ptr.next (readBuf s.ptr.next s)
      ∧ (s.ptr = .d1 → readLatch (.dig .d1) (tickBody .showThenAdvance s) = .high
        ∧ readLatch (.dig .d2) (tickBody .advanceThenShow s) = .high)

/-! ## The absent state, faults -/

/-- R240: the absent-state policy, for every command that passes the decode checks. What ENC responds is read
off the model's record of the port (log 4). -/
def Obligations.AbsentStatePolicy : Prop :=
  ∀ (i : Instr) (s : State), i.wf = true → s.present = false →
    ∃ t, exec i s = .next t ∧ t.trace = s.trace ∧ t.fault = s.fault
      ∧ (i ≠ .init → (∀ a, i ≠ .enc a) → t = s)
      ∧ (∀ a, i = .enc a → t.responses = s.responses ++ [segRom (BitVec.ofNat 4 a.toNat)])
      ∧ (i = .init → t.present = true)

/-- R122, R211, R235: a command that passes the decode checks never faults, but for a second INIT. -/
def Obligations.OnlyReinitFaultsAfterDecode : Prop :=
  ∀ (i : Instr) (s : State), i.wf = true → ¬ (i = .init ∧ s.present = true) →
    ∃ t, exec i s = .next t ∧ t.fault = s.fault

/-- R231: the six codes of FAULT and what causes each, 0 for no fault. -/
def Obligations.FaultCodesAndCauses : Prop :=
  ∀ (s : State) (w : Word), Running s →
    ∃ t, runWord exec w s = .next t
      ∧ (faultRegister t).toNat ≤ 6
      ∧ (faultRegister t = 1#8 ↔ ∀ o : Opcode, opField w ≠ o.byte)
      ∧ (faultRegister t = 2#8 ↔ ∃ o : Opcode, opField w = o.byte ∧ o.spells w = false)
      ∧ (faultRegister t = 3#8 ↔ Opcode.spells .setnum w = true ∧ ((bField w).toNat < 2 ∨ 16 < (bField w).toNat))
      ∧ (faultRegister t = 4#8 ↔ (Opcode.spells .enc w = true ∨ Opcode.spells .encapply w = true) ∧ 15 < (aField w).toNat)
      ∧ (faultRegister t = 5#8 ↔ (Opcode.spells .pinhi w = true ∨ Opcode.spells .pinlo w = true
          ∨ Opcode.spells .pintgl w = true) ∧ 11 < (aField w).toNat)
      ∧ (faultRegister t = 6#8 ↔ Opcode.spells .init w = true ∧ s.present = true)

/-- R230: a faulting word changes nothing but FAULT and gives no response. -/
def Obligations.FaultIsPrecise : Prop :=
  ∀ (s : State) (w : Word) (rest : List Word) (c : FaultCode),
    Running s → tickDue s = false → s.commands = w :: rest →
    (decode w = .reject c ∨ (decode w = .instr .init ∧ s.present = true ∧ c = .reinit)) →
    ∃ t, step s = .next t ∧ t.fault = some c ∧ faultRegister t = c.code ∧ SameShared s t ∧ SameLines s t
      ∧ t.responses = s.responses ∧ t.ctx = s.ctx

/-- R232, R246: the step after a faulting word is the fault outcome that names its code, word and position, even where a firing
arrived during it and is pending. The record of word and position is the model's (log 3, DESIGN CHOICE). -/
def Obligations.FaultHaltsBeforePendingTick : Prop :=
  ∀ (s : State) (w : Word) (rest : List Word) (c : FaultCode),
    Running s → tickDue s = false → s.commands = w :: rest →
    (decode w = .reject c ∨ (decode w = .instr .init ∧ s.present = true ∧ c = .reinit)) →
    ∃ t, step s = .next t ∧ t.tickPending = (nextSlot s).during
      ∧ step t = .fault (.halted c (some { word := w, position := s.position }))

/-- R233, R234: once FAULT is not 0 no step goes on, of either context, and what the block holds is what it held before the
faulting word. -/
def Obligations.HaltIsForEver : Prop :=
  (∀ (s : State) (c : FaultCode), s.fault = some c →
    ∀ k, ∃ r, Host.Core.run Sys2Proof.core (k + 1) s = .fault (.halted c r))
  ∧ (∀ s t : State, step s = .next t → Running s)
  ∧ ∀ (s : State) (w : Word) (rest : List Word) (c : FaultCode),
    Running s → tickDue s = false → s.commands = w :: rest →
    (decode w = .reject c ∨ (decode w = .instr .init ∧ s.present = true ∧ c = .reinit)) →
    ∃ t, step s = .next t ∧ SameShared s t ∧ SameLines s t
      ∧ ∀ k, ∃ r, Host.Core.run Sys2Proof.core (k + 1) t = .fault (.halted c r)

/-! ## The step -/

/-- When no tick is due, a step runs exactly the command that the next presented word decodes to; and the word placed by
withFetchWord is that word. The stream, the schedule and the fault record are the model's fields (log 1, 2, 3, 11, DESIGN CHOICE). -/
def Obligations.StepRunsTheDecodedCommand : Prop :=
  (∀ (s : State) (w : Word) (rest : List Word) (i : Instr), Running s → tickDue s = false → s.commands = w :: rest →
    decode w = .instr i →
    step s = mapNext (endCommand w (nextSlot s).during) (exec i (dropCommand (dropSlot s))))
  ∧ ∀ (s : State) (w : Nat) (i : Instr), w < 2 ^ 64 → decodeTableWord 64 w = some i →
    step (s.withFetchWord 64 w)
      = mapNext (endCommand (BitVec.ofNat 64 w) false)
          (exec i { s with tickPending := false, fault := none, faulting := none })

/-- R241, R243, R244, R247: a held or arriving firing runs one TICK before the next foreground command; the step clears
TICK_PENDING, leaves CTX at FG and holds a firing that arrived during the TICK. The schedule of firings is the model's input
(log 2, DESIGN CHOICE). -/
def Obligations.DueTickRunsFirst : Prop :=
  ∀ s : State, Running s → tickDue s = true →
    ∃ t u, step s = .next t ∧ exec .tick s = .next u ∧ SameBlock u t ∧ t.ctx = .fg
      ∧ t.tickPending = (nextSlot s).during ∧ t.commands = s.commands ∧ t.position = s.position
      ∧ t.firings = s.firings.tail ∧ t.faulting = s.faulting

/-- R243: a firing during a command is held, and the step after it runs the TICK, not the next word. The schedule of
firings is the model's input (log 2, DESIGN CHOICE). -/
def Obligations.FiringDuringCommandIsHeld : Prop :=
  ∀ (s : State) (w : Word) (rest : List Word) (i : Instr), Running s → tickDue s = false → s.commands = w :: rest →
    (nextSlot s).during = true → decode w = .instr i → ¬ (i = .init ∧ s.present = true) →
    ∃ t u, step s = .next t ∧ t.tickPending = true ∧ t.commands = rest ∧ t.position = s.position + 1
      ∧ step t = .next u ∧ u.commands = rest ∧ u.position = t.position
      ∧ (t.present = true → u.ptr = t.ptr.next)

/-- R79: a TICK the foreground issues does to the block what a TICK of the trigger does. The two inputs are the model's
fields (log 1, 2, DESIGN CHOICE). -/
def Obligations.ForegroundTickIsTriggerTick : Prop :=
  ∀ (s : State) (cs : List Word) (fs : List Slot) (d : Bool), Running s → s.ctx = .fg → s.tickPending = false →
    ∃ t u,
      step { s with commands := 0x0500000000000000#64 :: cs, firings := { before := false, during := d } :: fs } = .next t
      ∧ step { s with commands := cs, firings := { before := true, during := d } :: fs } = .next u
      ∧ SameBlock t u ∧ t.ctx = u.ctx ∧ t.tickPending = u.tickPending ∧ t.commands = u.commands ∧ t.firings = u.firings

/-- R272: with no word presented and no tick due the block waits: nothing changes but the schedule's place. That a wait
is a step and uses a slot up is the model's choice (log 1, 2, DESIGN CHOICE). -/
def Obligations.BlockWaitsForAWord : Prop :=
  ∀ s : State, Running s → tickDue s = false → s.commands = [] →
    step s = .next { s with firings := s.firings.tail } ∧ (s.firings = [] → step s = .next s)

/-- R35: CTX is FG after reset and hidden: no command reads it and no result depends on it. -/
def Obligations.CtxIsHidden : Prop :=
  State.reset.ctx = .fg ∧
  ∀ (i : Instr) (s : State) (x : Ctx),
    ∃ t, exec i s = .next t ∧ t.ctx = s.ctx ∧ exec i { s with ctx := x } = .next { t with ctx := x }

/-- R37: ENC alone returns a response; no command depends on what was returned before. The list is the model's record of
the port (log 4, DESIGN CHOICE). -/
def Obligations.ResponsesComeFromEncAlone : Prop :=
  ∀ (i : Instr) (s : State),
    ∃ t, exec i s = .next t
      ∧ ((∀ a, i ≠ .enc a) → t.responses = s.responses)
      ∧ ∃ rs, t.responses = s.responses ++ rs ∧ exec i { s with responses := [] } = .next { t with responses := rs }

/-! ## Reset, invariant -/

/-- R39, R270: the state after reset, as far as the spec gives it. -/
def Obligations.ResetState : Prop :=
  State.reset.present = false ∧ (∀ l, readLatch l State.reset = .unspec) ∧ State.reset.trace = []
    ∧ faultRegister State.reset = 0#8 ∧ State.reset.tickPending = false ∧ State.reset.ctx = .fg

/-- The invariant holds after reset, whatever words are presented and however the trigger fires. -/
def Obligations.InvariantHoldsAtReset : Prop :=
  ∀ (cs : List Word) (fs : List Slot), Machine.Inv { State.reset with commands := cs, firings := fs }

/-- Every step keeps the invariant: legal buffers (R154), latches that hold the trace's last levels (R31), no segment line driven
high (R28), no line written while absent (R121, R210), CTX at FG between steps (R247), no response with bit 7 set
(R103), and a named command for every fault (R232; the record is the model's, log 3, DESIGN CHOICE). -/
def Obligations.StepKeepsInvariant : Prop :=
  ∀ s t : State, Machine.Inv s → step s = .next t → Machine.Inv t

/-- R154: while the state is present every buffer is blank or a ROM entry, with or without its decimal point; every command keeps that. -/
def Obligations.BufferInvariant : Prop :=
  ∀ (i : Instr) (s : State), (s.present = true → ∀ p, LegalBuffer (readBuf p s)) →
    ∃ t, exec i s = .next t ∧ (t.present = true → ∀ p, LegalBuffer (readBuf p t))

/-! ## Observation and hazards -/

/-- R30, R275: lit exactly when the digit is High and the segment Low, unknown while a latch is UNSPEC; after INIT every segment is
unknown, and after a present TICK every one is known. What an UNSPEC latch may stand for (mayBeLit) is the model's reading (log 7). -/
def Obligations.LightingIsKnownAfterATick : Prop :=
  (∀ (p : Position) (sg : Segment) (s : State),
    (lighting p sg s = .lit ↔ readLatch (.dig p) s = .high ∧ readLatch (.seg sg) s = .low)
    ∧ (lighting p sg s = .unknown ↔ readLatch (.dig p) s = .unspec ∨ readLatch (.seg sg) s = .unspec)
    ∧ (lighting p sg s = .lit → mayBeLit p sg s = true) ∧ (lighting p sg s = .dark → mayBeLit p sg s = false))
  ∧ (∀ s : State, s.present = false →
    ∃ t, exec .init s = .next t ∧ ∀ p sg, lighting p sg t = .unknown ∧ mayBeLit p sg t = true)
  ∧ ∀ s : State, s.present = true → ∃ t, exec .tick s = .next t ∧ ∀ p sg, lighting p sg t ≠ .unknown

/-- R281, R282: the two hazards of direct driving are not refused: a segment command changes the pattern of a lit digit, DIGEN
lights a second digit with the same pattern, and a following SHOW restores one. -/
def Obligations.HazardsAreNotRefused : Prop :=
  (∀ (a : Byte) (s : State) (q : Position), s.present = true → readLatch (.dig q) s = .high →
    crossTalkHazard (.segen a) s = true
    ∧ ∃ t, exec (.segen a) s = .next t ∧ t.fault = s.fault
      ∧ lighting q (Segment.ofIndex a.toNat) t = .lit)
  ∧ ∀ (a : Byte) (s : State) (q : Position), s.present = true → readLatch (.dig q) s = .high →
    q.index ≠ a.toNat % 4 →
    twoDigitsHazard (.digen a) s = true
    ∧ (∃ t, exec (.digen a) s = .next t ∧ t.fault = s.fault ∧ readLatch (.dig q) t = .high
      ∧ readLatch (.dig (Position.ofIndex a.toNat)) t = .high)
    ∧ ∀ b : Byte, ∃ u, runCommands [.digen a, .showPos b] s = .next u
      ∧ ∀ p, readLatch (.dig p) u = if p.index = b.toNat % 4 then .high else .low

/-! ## The assembler's numbers -/

/-- R80 in part, R81: an operand number is encoded where it is in the range of its format and refused where it is not, for every number
and every way of writing it that readNumber takes; a format without operands takes none and format S takes two; and every number is
read from its decimal digits and from 0x and its hexadecimal ones. One blank after the mnemonic and after the comma, and lower-case
hexadecimal digits, are the model's conventions (log 15, DESIGN CHOICE). -/
def Obligations.AssemblerRangesNumbers : Prop :=
  (∀ (o : Opcode) (x : String) (n : Nat), readNumber x.toList = some n →
    ((o.format = .n ∨ o.format = .s) → assembleLine (o.mnemonic ++ " " ++ x) = none)
    ∧ ((o.format = .p ∨ o.format = .g ∨ o.format = .m) → assembleLine (o.mnemonic ++ " " ++ x)
        = if n ≤ 255 then some [assemble o.byte (BitVec.ofNat 8 n) 0#8 0#8 0#32] else none)
    ∧ (o.format = .d → assembleLine (o.mnemonic ++ " " ++ x)
        = if n ≤ 15 then some [assemble o.byte (BitVec.ofNat 8 n) 0#8 0#8 0#32] else none)
    ∧ (o.format = .l → assembleLine (o.mnemonic ++ " " ++ x)
        = if n ≤ 11 then some [assemble o.byte (BitVec.ofNat 8 n) 0#8 0#8 0#32] else none))
  ∧ (∀ (x y : String) (n m : Nat), readNumber x.toList = some n → readNumber y.toList = some m →
    assembleLine ("SETNUM " ++ x ++ ", " ++ y)
      = if n ≤ 4294967295 ∧ m ≤ 255 then some [assemble 0x02#8 0#8 (BitVec.ofNat 8 m) 0#8 (BitVec.ofNat 32 n)] else none)
  ∧ (∀ (x : String) (n : Nat), readNumber x.toList = some n →
    ∀ q ∈ ([("SETDEC", 10#8), ("SETHEX", 16#8), ("SETBIN", 2#8)] : List (String × Byte)),
      assembleLine (q.1 ++ " " ++ x)
        = if n ≤ 4294967295 then some [assemble 0x02#8 0#8 q.2 0#8 (BitVec.ofNat 32 n)] else none)
  ∧ ∀ n : Nat, readNumber (Nat.toDigits 10 n) = some n ∧ readNumber ('0' :: 'x' :: Nat.toDigits 16 n) = some n
end

