-- ==== Sys2Proof/Laws/Assembler.lean ====
section
/-! SUPPORT. What the assembler makes of a line whose operands are plain texts, and which numbers it reads and refuses (R80). -/

namespace Sys2Proof.Machine

/-- A character that is no white space, no comma and starts no comment. -/
def Plain (c : Char) : Prop := isBlank c = false ∧ c ≠ ',' ∧ c ≠ ';'

theorem plain_of_toNat {c : Char} (h : 48 ≤ c.toNat) (h' : c.toNat ≠ 59) : Plain c := by
  refine ⟨?_, ?_, ?_⟩
  · simp only [isBlank, Bool.or_eq_false_iff, beq_eq_false_iff_ne]
    refine ⟨⟨⟨?_, ?_⟩, ?_⟩, ?_⟩ <;> rintro rfl <;> exact absurd h (by decide)
  · rintro rfl; exact absurd h (by decide)
  · rintro rfl; exact absurd h' (by decide)

theorem plain_digit {b : Nat} {c : Char} {d : Nat} (hb : b ≤ 16) (h : digitValue b c = some d) : Plain c := by
  by_cases h1 : 48 ≤ c.toNat ∧ c.toNat ≠ 59
  · exact plain_of_toNat h1.1 h1.2
  · have a : ¬ (48 ≤ c.toNat ∧ c.toNat ≤ 57) := by omega
    have e : ¬ (97 ≤ c.toNat ∧ c.toNat ≤ 102) := by omega
    have f : ¬ (65 ≤ c.toNat ∧ c.toNat ≤ 70) := by omega
    simp only [digitValue, if_neg a, if_neg e, if_neg f, if_neg (show ¬ 16 < b by omega)] at h
    cases h

theorem plain_digits {b : Nat} (hb : b ≤ 16) : ∀ (cs : List Char) (k n : Nat), readDigits b k cs = some n → ∀ c ∈ cs, Plain c := by
  intro cs
  induction cs with
  | nil => intro _ _ _ c hc; simp at hc
  | cons c cs ih =>
    intro k n h
    simp only [readDigits] at h
    cases hd : digitValue b c with
    | none => rw [hd] at h; cases h
    | some d =>
      rw [hd] at h
      intro x hx
      rcases List.mem_cons.1 hx with rfl | hx
      · exact plain_digit hb hd
      · exact ih _ _ h x hx

/-- A text that reads as a number has a character, and every one of them is plain. -/
theorem plain_number {x : List Char} {n : Nat} (h : readNumber x = some n) : x ≠ [] ∧ ∀ c ∈ x, Plain c := by
  unfold readNumber at h
  split at h
  · cases h
  · refine ⟨by simp, ?_⟩
    have := plain_digits (by decide) _ _ _ h
    intro c hc
    rcases List.mem_cons.1 hc with rfl | hc
    · exact plain_of_toNat (by decide) (by decide)
    rcases List.mem_cons.1 hc with rfl | hc
    · exact plain_of_toNat (by decide) (by decide)
    · exact this c hc
  · exact ⟨by simp, plain_digits (by decide) _ _ _ h⟩

theorem dropBlanks_plain {x : List Char} (h : ∀ c ∈ x, Plain c) (hne : x ≠ []) (t : List Char) :
    (x ++ t).dropWhile isBlank = x ++ t := by
  cases x with
  | nil => exact absurd rfl hne
  | cons c cs => simp [(h c (by simp)).1]

theorem trim_plain {x : List Char} (h : ∀ c ∈ x, Plain c) (hne : x ≠ []) : trim x = x := by
  have h1 := dropBlanks_plain h hne []
  have h2 := dropBlanks_plain (x := x.reverse) (by simpa using h) (by simpa using hne) []
  simp only [List.append_nil] at h1 h2
  simp [trim, h1, h2]

/-- A line that begins and ends with plain characters is its own trimmed text. -/
theorem trim_ends {x y : List Char} (m : List Char) (hx : ∀ c ∈ x, Plain c) (hxe : x ≠ []) (hy : ∀ c ∈ y, Plain c) (hye : y ≠ []) :
    trim (x ++ m ++ y) = x ++ m ++ y := by
  have h1 := dropBlanks_plain hx hxe (m ++ y)
  have h2 := dropBlanks_plain (x := y.reverse) (by simpa using hy) (by simpa using hye) (m.reverse ++ x.reverse)
  simp only [trim, List.append_assoc, h1, List.reverse_append, h2, List.reverse_reverse]

theorem trim_blank (x : List Char) : trim (' ' :: x) = trim x := by
  simp [trim, isBlank]

theorem splitCommas_plain {x : List Char} (h : ∀ c ∈ x, c ≠ ',') : splitCommas x = [x] := by
  induction x with
  | nil => rfl
  | cons c cs ih =>
    have hc := h c (by simp)
    simp [splitCommas, hc, ih (fun d hd => h d (by simp [hd]))]

theorem splitCommas_comma {x y : List Char} (h : ∀ c ∈ x, c ≠ ',') (h' : ∀ c ∈ y, c ≠ ',') :
    splitCommas (x ++ ',' :: y) = [x, y] := by
  induction x with
  | nil => simp [splitCommas, splitCommas_plain h']
  | cons c cs ih =>
    have hc := h c (by simp)
    simp [splitCommas, hc, ih (fun d hd => h d (by simp [hd]))]

theorem take_mnemonic {A : List Char} (hA : ∀ c ∈ A, Plain c) (t : List Char) :
    (A ++ ' ' :: t).takeWhile (fun c => !isBlank c) = A
      ∧ (A ++ ' ' :: t).dropWhile (fun c => !isBlank c) = ' ' :: t := by
  have h : ∀ c ∈ A, (!isBlank c) = true := fun c hc => by simp [(hA c hc).1]
  rw [List.takeWhile_append_of_pos h, List.dropWhile_append_of_pos h]
  constructor <;> simp [isBlank]

theorem beforeComment_plain {x : List Char} (h : ∀ c ∈ x, c ≠ ';') : beforeComment x = x := by
  unfold beforeComment; rw [List.takeWhile_eq_self_iff]; simpa using h

/-- What assembleLine does once it has the mnemonic and the operand texts. -/
def assembleWords (name : List Char) (ops : List (List Char)) : Option (List Word) :=
    match Opcode.all.find? fun o => o.mnemonic.toList == name with
    | some o => (assembleCommand o ops).map fun i => [encode i]
    | none => (assemblePseudo name ops).map fun q => q.expand.map encode

/-- A mnemonic, a blank and one operand text. -/
theorem assembleLine_one {L : String} {A x : List Char} (hL : L.toList = A ++ ' ' :: x) (hA : ∀ c ∈ A, Plain c)
    (hAe : A ≠ []) (hx : ∀ c ∈ x, Plain c) (hxe : x ≠ []) :
    assembleLine L = assembleWords A [x] := by
  unfold assembleLine
  have h1 : trim (beforeComment L.toList) = A ++ ' ' :: x := by
    rw [hL, beforeComment_plain]
    · have := trim_ends [' '] hA hAe hx hxe; simpa using this
    · intro c hc; simp only [List.mem_append, List.mem_cons] at hc
      rcases hc with hc | rfl | hc
      · exact (hA c hc).2.2
      · decide
      · exact (hx c hc).2.2
  have h2 : operandsOf (' ' :: x) = [x] := by
    unfold operandsOf
    rw [trim_blank, trim_plain hx hxe, splitCommas_plain]
    · simp [hxe, trim_blank, trim_plain hx hxe]
    · intro c hc; rcases List.mem_cons.1 hc with rfl | hc
      · decide
      · exact (hx c hc).2.1
  simp only [h1, take_mnemonic hA, h2]
  rw [if_neg (by simp)]; rfl

/-- A mnemonic, a blank and two operand texts with a comma and a blank between them. -/
theorem assembleLine_two {L : String} {A x y : List Char} (hL : L.toList = A ++ ' ' :: (x ++ ',' :: ' ' :: y)) (hA : ∀ c ∈ A, Plain c)
    (hAe : A ≠ []) (hx : ∀ c ∈ x, Plain c) (hxe : x ≠ []) (hy : ∀ c ∈ y, Plain c) (hye : y ≠ []) :
    assembleLine L = assembleWords A [x, y] := by
  unfold assembleLine
  have h1 : trim (beforeComment L.toList) = A ++ ' ' :: (x ++ ',' :: ' ' :: y) := by
    rw [hL, beforeComment_plain]
    · have := trim_ends (' ' :: (x ++ [',', ' '])) hA hAe hy hye; simpa using this
    · intro c hc; simp only [List.mem_append, List.mem_cons] at hc
      rcases hc with hc | rfl | hc | rfl | rfl | hc
      · exact (hA c hc).2.2
      · decide
      · exact (hx c hc).2.2
      · decide
      · decide
      · exact (hy c hc).2.2
  have h2 : operandsOf (' ' :: (x ++ ',' :: ' ' :: y)) = [x, y] := by
    unfold operandsOf
    have ht : trim (' ' :: (x ++ ',' :: ' ' :: y)) = x ++ ',' :: ' ' :: y := by
      rw [trim_blank]; have := trim_ends [',', ' '] hx hxe hy hye; simpa using this
    have hs : splitCommas (' ' :: (x ++ ',' :: ' ' :: y)) = [' ' :: x, ' ' :: y] := by
      refine splitCommas_comma (x := ' ' :: x) (y := ' ' :: y) ?_ ?_ <;> intro c hc <;> rcases List.mem_cons.1 hc with rfl | hc
      · decide
      · exact (hx c hc).2.1
      · decide
      · exact (hy c hc).2.1
    rw [ht, hs]; simp [trim_blank, trim_plain hx hxe, trim_plain hy hye]
  simp only [h1, take_mnemonic hA, h2]
  rw [if_neg (by simp)]; rfl

theorem find_opcode_mnemonic (o : Opcode) : (Opcode.all.find? fun o' => o'.mnemonic.toList == o.mnemonic.toList) = some o := by
  cases o <;> decide

theorem mnemonic_plain (o : Opcode) : o.mnemonic.toList ≠ [] ∧ ∀ c ∈ o.mnemonic.toList, Plain c := by
  have : o.mnemonic.toList ≠ [] ∧ (o.mnemonic.toList.all fun c => decide (48 ≤ c.toNat ∧ c.toNat ≠ 59)) = true := by cases o <;> decide
  exact ⟨this.1, fun c hc => by have h := List.all_eq_true.1 this.2 c hc; simp at h; exact plain_of_toNat h.1 h.2⟩

/-- A name that is no number differs from every text that reads as a number. -/
theorem name_ne_number {x : List Char} {n : Nat} (h : readNumber x = some n) {nm : List Char} (hn : readNumber nm = none) : (nm == x) = false := by
  rw [beq_eq_false_iff_ne]; rintro rfl; rw [h] at hn; cases hn

theorem numberUpTo_eq {x : List Char} {n : Nat} (h : readNumber x = some n) (top : Nat) : numberUpTo top x = if n ≤ top then some n else none := by
  simp [numberUpTo, h]

theorem positionText_eq {x : List Char} {n : Nat} (h : readNumber x = some n) : positionText x = if n ≤ 255 then some n else none := by
  unfold positionText
  have : (Position.all.find? fun p => (positionName p).toList == x) = none := by
    rw [List.find?_eq_none]; intro p _
    rw [name_ne_number h (by cases p <;> decide)]; simp
  rw [this]; exact numberUpTo_eq h 255

theorem segmentText_eq {x : List Char} {n : Nat} (h : readNumber x = some n) : segmentText x = if n ≤ 255 then some n else none := by
  unfold segmentText
  have : (Segment.all.find? fun p => (segmentName p).toList == x) = none := by
    rw [List.find?_eq_none]; intro p _
    rw [name_ne_number h (by cases p <;> decide)]; simp
  rw [this]; exact numberUpTo_eq h 255

theorem lineText_eq {x : List Char} {n : Nat} (h : readNumber x = some n) : lineText x = if n ≤ 11 then some n else none := by
  unfold lineText
  have : (Line.all.find? fun p => (lineName p).toList == x) = none := by
    rw [List.find?_eq_none]; intro p _
    rw [name_ne_number h (by rcases p with p | p <;> cases p <;> decide)]; simp
  rw [this]; exact numberUpTo_eq h 11

/-- The word of a command with operand A alone, where its number is in range. -/
theorem encode_withA_ranged (o : Opcode) (ho : o.format ≠ .n ∧ o.format ≠ .s) (b : Prop) [Decidable b] (n : Nat) :
    ((withA o (if b then some n else none)).map fun i => [encode i]) = if b then some [assemble o.byte (BitVec.ofNat 8 n) 0#8 0#8 0#32] else none := by
  split
  · cases o <;> first | exact absurd rfl ho.1 | exact absurd rfl ho.2 | rfl
  · rfl

theorem digitValue_digitChar {b d : Nat} (hb : b = 10 ∨ b = 16) (h : d < b) : digitValue b (Nat.digitChar d) = some d := by
  rcases hb with rfl | rfl <;> interval_cases d <;> decide

theorem readDigits_append {b : Nat} (xs ys : List Char) (k : Nat) : readDigits b k (xs ++ ys) = (readDigits b k xs).bind fun m => readDigits b m ys := by
  induction xs generalizing k with
  | nil => rfl
  | cons c cs ih =>
    simp only [List.cons_append, readDigits]
    cases digitValue b c with
    | none => rfl
    | some d => exact ih _

theorem readDigits_toDigits {b : Nat} (hb : b = 10 ∨ b = 16) (n : Nat) : readDigits b 0 (Nat.toDigits b n) = some n := by
  have h1 : 1 < b := by omega
  induction n using Nat.strong_induction_on with
  | _ n ih =>
    by_cases hn : n < b
    · rw [Nat.toDigits_of_lt_base hn]; simp [readDigits, digitValue_digitChar hb hn]
    · rw [Nat.toDigits_of_base_le h1 (by omega), readDigits_append, ih _ (Nat.div_lt_self (by omega) h1)]
      simp only [Option.bind_some, readDigits, digitValue_digitChar hb (Nat.mod_lt n (by omega))]
      rw [Nat.div_add_mod']

theorem toDigits_ne_nil {b n : Nat} (hb : 1 < b) : Nat.toDigits b n ≠ [] := by
  rw [Nat.toDigits_eq_if hb]; split <;> simp

/-- A number is read from its decimal digits. -/
theorem readNumber_decimal (n : Nat) : readNumber (Nat.toDigits 10 n) = some n := by
  have h := readDigits_toDigits (.inl rfl) n
  have hne := toDigits_ne_nil (b := 10) (n := n) (by decide)
  unfold readNumber
  split
  · rename_i h'; exact absurd h' hne
  · rename_i c cs h'; rw [h'] at h; simp [readDigits, digitValue] at h
  · rename_i h'; rw [← h']; exact h

/-- A number is read from 0x and its hexadecimal digits. -/
theorem readNumber_hex (n : Nat) : readNumber ('0' :: 'x' :: Nat.toDigits 16 n) = some n := by
  have h := readDigits_toDigits (.inr rfl) n
  have hne := toDigits_ne_nil (b := 16) (n := n) (by decide)
  cases hc : Nat.toDigits 16 n with
  | nil => exact absurd hc hne
  | cons c cs => rw [← hc]; unfold readNumber; rw [hc]; simp only; rw [← hc]; exact h

end Sys2Proof.Machine
end

