-- ==== Sys2Proof/Laws/Decode.lean ====
section
/-! SUPPORT. The fields of an assembled word, and the opcode map read both ways. -/

namespace Sys2Proof

/-- The bits of an assembled word (R71). -/
theorem getLsbD_assemble (op a b z : Byte) (v : Value) (i : Nat) :
    (assemble op a b z v).getLsbD i
      = if i < 32 then v.getLsbD i else if i < 40 then z.getLsbD (i - 32) else if i < 48 then b.getLsbD (i - 40)
        else if i < 56 then a.getLsbD (i - 48) else op.getLsbD (i - 56) := by
  change (op ++ a ++ b ++ z ++ v : BitVec (8 + 8 + 8 + 8 + 32)).getLsbD i = _
  simp only [BitVec.getLsbD_append]
  grind

/-- A field that lies at bits `k` to `k + n - 1` of the word. -/
theorem field_eq {n k : Nat} {w : Word} {x : BitVec n} (h : ∀ i, i < n → w.getLsbD (k + i) = x.getLsbD i) :
    w.extractLsb' k n = x := by
  apply BitVec.eq_of_getLsbD_eq
  intro i hi
  rw [BitVec.getLsbD_extractLsb', h i hi]
  simp [hi]

@[simp] theorem opField_assemble (op a b z : Byte) (v : Value) : opField (assemble op a b z v) = op :=
  field_eq fun i hi => by rw [getLsbD_assemble]; grind

@[simp] theorem aField_assemble (op a b z : Byte) (v : Value) : aField (assemble op a b z v) = a :=
  field_eq fun i hi => by rw [getLsbD_assemble]; grind

@[simp] theorem bField_assemble (op a b z : Byte) (v : Value) : bField (assemble op a b z v) = b :=
  field_eq fun i hi => by rw [getLsbD_assemble]; grind

@[simp] theorem zField_assemble (op a b z : Byte) (v : Value) : zField (assemble op a b z v) = z :=
  field_eq fun i hi => by rw [getLsbD_assemble]; grind

@[simp] theorem vField_assemble (op a b z : Byte) (v : Value) : vField (assemble op a b z v) = v :=
  field_eq fun i hi => by rw [getLsbD_assemble]; grind

/-- A word is its fields (R71). -/
theorem assemble_fields (w : Word) : assemble (opField w) (aField w) (bField w) (zField w) (vField w) = w := by
  apply BitVec.eq_of_getLsbD_eq
  intro i hi
  rw [getLsbD_assemble]
  simp only [opField, aField, bField, zField, vField, BitVec.getLsbD_extractLsb']
  grind

/-- AND works field by field. -/
theorem assemble_and (op a b z op' a' b' z' : Byte) (v v' : Value) :
    assemble op a b z v &&& assemble op' a' b' z' v'
      = assemble (op &&& op') (a &&& a') (b &&& b') (z &&& z') (v &&& v') := by
  apply BitVec.eq_of_getLsbD_eq
  intro i hi
  simp only [BitVec.getLsbD_and, getLsbD_assemble]
  grind

/-- Two words are equal when their fields are. -/
theorem assemble_inj {op a b z op' a' b' z' : Byte} {v v' : Value} :
    assemble op a b z v = assemble op' a' b' z' v' ↔ op = op' ∧ a = a' ∧ b = b' ∧ z = z' ∧ v = v' := by
  constructor
  · intro h
    exact ⟨by simpa using congrArg opField h, by simpa using congrArg aField h, by simpa using congrArg bField h,
      by simpa using congrArg zField h, by simpa using congrArg vField h⟩
  · rintro ⟨rfl, rfl, rfl, rfl, rfl⟩; rfl

@[simp] theorem opcodeOf?_byte (o : Opcode) : opcodeOf? o.byte = some o := by cases o <;> decide

theorem byte_of_opcodeOf? {op : Byte} {o : Opcode} (h : opcodeOf? op = some o) : o.byte = op := by
  have := List.find?_some h
  simpa using this

/-- What the decoder answers on an assembled word, check by check (R78). -/
theorem decode_assemble (o : Opcode) (a b z : Byte) (v : Value) :
    decode (assemble o.byte a b z v)
      = if o.format.reservedZero (assemble o.byte a b z v) then
          match o.format.rangeFault a b with
          | some c => .reject c
          | none => .instr (o.make a b v)
        else .reject .reservedNonzero := by
  unfold decode
  rw [opField_assemble, opcodeOf?_byte, aField_assemble, bField_assemble, vField_assemble] <;> rfl

end Sys2Proof
end

