-- ==== Sys2Proof/Laws/State.lean ====
section
/-! SUPPORT. Each field after each named update, and what the stores read after it. -/

namespace Sys2Proof.Machine

/-! ## writeBuf -/

@[simp] theorem writeBuf_present (p : Position) (m : Byte) (s : State) : (writeBuf p m s).present = s.present := rfl
@[simp] theorem writeBuf_buf (p : Position) (m : Byte) (s : State) : (writeBuf p m s).buf = s.buf.set p m := rfl
@[simp] theorem writeBuf_ptr (p : Position) (m : Byte) (s : State) : (writeBuf p m s).ptr = s.ptr := rfl
@[simp] theorem writeBuf_segOut (p : Position) (m : Byte) (s : State) : (writeBuf p m s).segOut = s.segOut := rfl
@[simp] theorem writeBuf_digOut (p : Position) (m : Byte) (s : State) : (writeBuf p m s).digOut = s.digOut := rfl
@[simp] theorem writeBuf_trace (p : Position) (m : Byte) (s : State) : (writeBuf p m s).trace = s.trace := rfl
@[simp] theorem writeBuf_fault (p : Position) (m : Byte) (s : State) : (writeBuf p m s).fault = s.fault := rfl
@[simp] theorem writeBuf_tickPending (p : Position) (m : Byte) (s : State) : (writeBuf p m s).tickPending = s.tickPending := rfl
@[simp] theorem writeBuf_ctx (p : Position) (m : Byte) (s : State) : (writeBuf p m s).ctx = s.ctx := rfl
@[simp] theorem writeBuf_responses (p : Position) (m : Byte) (s : State) : (writeBuf p m s).responses = s.responses := rfl
@[simp] theorem writeBuf_commands (p : Position) (m : Byte) (s : State) : (writeBuf p m s).commands = s.commands := rfl
@[simp] theorem writeBuf_position (p : Position) (m : Byte) (s : State) : (writeBuf p m s).position = s.position := rfl
@[simp] theorem writeBuf_firings (p : Position) (m : Byte) (s : State) : (writeBuf p m s).firings = s.firings := rfl
@[simp] theorem writeBuf_faulting (p : Position) (m : Byte) (s : State) : (writeBuf p m s).faulting = s.faulting := rfl
@[simp] theorem readLatch_writeBuf (l : Line) (p : Position) (m : Byte) (s : State) : readLatch l (writeBuf p m s) = readLatch l s := by cases l <;> rfl

/-! ## writeAllBufs -/

@[simp] theorem writeAllBufs_present (f : Position → Byte) (s : State) : (writeAllBufs f s).present = s.present := rfl
@[simp] theorem writeAllBufs_buf (f : Position → Byte) (s : State) : (writeAllBufs f s).buf = PerDigit.tabulate f := rfl
@[simp] theorem writeAllBufs_ptr (f : Position → Byte) (s : State) : (writeAllBufs f s).ptr = s.ptr := rfl
@[simp] theorem writeAllBufs_segOut (f : Position → Byte) (s : State) : (writeAllBufs f s).segOut = s.segOut := rfl
@[simp] theorem writeAllBufs_digOut (f : Position → Byte) (s : State) : (writeAllBufs f s).digOut = s.digOut := rfl
@[simp] theorem writeAllBufs_trace (f : Position → Byte) (s : State) : (writeAllBufs f s).trace = s.trace := rfl
@[simp] theorem writeAllBufs_fault (f : Position → Byte) (s : State) : (writeAllBufs f s).fault = s.fault := rfl
@[simp] theorem writeAllBufs_tickPending (f : Position → Byte) (s : State) : (writeAllBufs f s).tickPending = s.tickPending := rfl
@[simp] theorem writeAllBufs_ctx (f : Position → Byte) (s : State) : (writeAllBufs f s).ctx = s.ctx := rfl
@[simp] theorem writeAllBufs_responses (f : Position → Byte) (s : State) : (writeAllBufs f s).responses = s.responses := rfl
@[simp] theorem writeAllBufs_commands (f : Position → Byte) (s : State) : (writeAllBufs f s).commands = s.commands := rfl
@[simp] theorem writeAllBufs_position (f : Position → Byte) (s : State) : (writeAllBufs f s).position = s.position := rfl
@[simp] theorem writeAllBufs_firings (f : Position → Byte) (s : State) : (writeAllBufs f s).firings = s.firings := rfl
@[simp] theorem writeAllBufs_faulting (f : Position → Byte) (s : State) : (writeAllBufs f s).faulting = s.faulting := rfl
@[simp] theorem readLatch_writeAllBufs (l : Line) (f : Position → Byte) (s : State) : readLatch l (writeAllBufs f s) = readLatch l s := by cases l <;> rfl

/-! ## unspecAll -/

@[simp] theorem unspecAll_present (s : State) : (unspecAll s).present = s.present := rfl
@[simp] theorem unspecAll_buf (s : State) : (unspecAll s).buf = s.buf := rfl
@[simp] theorem unspecAll_ptr (s : State) : (unspecAll s).ptr = s.ptr := rfl
@[simp] theorem unspecAll_segOut (s : State) : (unspecAll s).segOut = PerSegment.fill .unspec := rfl
@[simp] theorem unspecAll_digOut (s : State) : (unspecAll s).digOut = PerDigit.tabulate fun _ => .unspec := rfl
@[simp] theorem unspecAll_trace (s : State) : (unspecAll s).trace = s.trace := rfl
@[simp] theorem unspecAll_fault (s : State) : (unspecAll s).fault = s.fault := rfl
@[simp] theorem unspecAll_tickPending (s : State) : (unspecAll s).tickPending = s.tickPending := rfl
@[simp] theorem unspecAll_ctx (s : State) : (unspecAll s).ctx = s.ctx := rfl
@[simp] theorem unspecAll_responses (s : State) : (unspecAll s).responses = s.responses := rfl
@[simp] theorem unspecAll_commands (s : State) : (unspecAll s).commands = s.commands := rfl
@[simp] theorem unspecAll_position (s : State) : (unspecAll s).position = s.position := rfl
@[simp] theorem unspecAll_firings (s : State) : (unspecAll s).firings = s.firings := rfl
@[simp] theorem unspecAll_faulting (s : State) : (unspecAll s).faulting = s.faulting := rfl
@[simp] theorem readBuf_unspecAll (q : Position) (s : State) : readBuf q (unspecAll s) = readBuf q s := rfl

/-! ## respond -/

@[simp] theorem respond_present (m : Byte) (s : State) : (respond m s).present = s.present := rfl
@[simp] theorem respond_buf (m : Byte) (s : State) : (respond m s).buf = s.buf := rfl
@[simp] theorem respond_ptr (m : Byte) (s : State) : (respond m s).ptr = s.ptr := rfl
@[simp] theorem respond_segOut (m : Byte) (s : State) : (respond m s).segOut = s.segOut := rfl
@[simp] theorem respond_digOut (m : Byte) (s : State) : (respond m s).digOut = s.digOut := rfl
@[simp] theorem respond_trace (m : Byte) (s : State) : (respond m s).trace = s.trace := rfl
@[simp] theorem respond_fault (m : Byte) (s : State) : (respond m s).fault = s.fault := rfl
@[simp] theorem respond_tickPending (m : Byte) (s : State) : (respond m s).tickPending = s.tickPending := rfl
@[simp] theorem respond_ctx (m : Byte) (s : State) : (respond m s).ctx = s.ctx := rfl
@[simp] theorem respond_responses (m : Byte) (s : State) : (respond m s).responses = s.responses ++ [m] := rfl
@[simp] theorem respond_commands (m : Byte) (s : State) : (respond m s).commands = s.commands := rfl
@[simp] theorem respond_position (m : Byte) (s : State) : (respond m s).position = s.position := rfl
@[simp] theorem respond_firings (m : Byte) (s : State) : (respond m s).firings = s.firings := rfl
@[simp] theorem respond_faulting (m : Byte) (s : State) : (respond m s).faulting = s.faulting := rfl
@[simp] theorem readBuf_respond (q : Position) (m : Byte) (s : State) : readBuf q (respond m s) = readBuf q s := rfl
@[simp] theorem readLatch_respond (l : Line) (m : Byte) (s : State) : readLatch l (respond m s) = readLatch l s := by cases l <;> rfl

/-! ## raiseFault -/

@[simp] theorem raiseFault_present (c : FaultCode) (s : State) : (raiseFault c s).present = s.present := rfl
@[simp] theorem raiseFault_buf (c : FaultCode) (s : State) : (raiseFault c s).buf = s.buf := rfl
@[simp] theorem raiseFault_ptr (c : FaultCode) (s : State) : (raiseFault c s).ptr = s.ptr := rfl
@[simp] theorem raiseFault_segOut (c : FaultCode) (s : State) : (raiseFault c s).segOut = s.segOut := rfl
@[simp] theorem raiseFault_digOut (c : FaultCode) (s : State) : (raiseFault c s).digOut = s.digOut := rfl
@[simp] theorem raiseFault_trace (c : FaultCode) (s : State) : (raiseFault c s).trace = s.trace := rfl
@[simp] theorem raiseFault_fault (c : FaultCode) (s : State) : (raiseFault c s).fault = some c := rfl
@[simp] theorem raiseFault_tickPending (c : FaultCode) (s : State) : (raiseFault c s).tickPending = s.tickPending := rfl
@[simp] theorem raiseFault_ctx (c : FaultCode) (s : State) : (raiseFault c s).ctx = s.ctx := rfl
@[simp] theorem raiseFault_responses (c : FaultCode) (s : State) : (raiseFault c s).responses = s.responses := rfl
@[simp] theorem raiseFault_commands (c : FaultCode) (s : State) : (raiseFault c s).commands = s.commands := rfl
@[simp] theorem raiseFault_position (c : FaultCode) (s : State) : (raiseFault c s).position = s.position := rfl
@[simp] theorem raiseFault_firings (c : FaultCode) (s : State) : (raiseFault c s).firings = s.firings := rfl
@[simp] theorem raiseFault_faulting (c : FaultCode) (s : State) : (raiseFault c s).faulting = s.faulting := rfl
@[simp] theorem readBuf_raiseFault (q : Position) (c : FaultCode) (s : State) : readBuf q (raiseFault c s) = readBuf q s := rfl
@[simp] theorem readLatch_raiseFault (l : Line) (c : FaultCode) (s : State) : readLatch l (raiseFault c s) = readLatch l s := by cases l <;> rfl

/-! ## enterTick -/

@[simp] theorem enterTick_present (s : State) : (enterTick s).present = s.present := rfl
@[simp] theorem enterTick_buf (s : State) : (enterTick s).buf = s.buf := rfl
@[simp] theorem enterTick_ptr (s : State) : (enterTick s).ptr = s.ptr := rfl
@[simp] theorem enterTick_segOut (s : State) : (enterTick s).segOut = s.segOut := rfl
@[simp] theorem enterTick_digOut (s : State) : (enterTick s).digOut = s.digOut := rfl
@[simp] theorem enterTick_trace (s : State) : (enterTick s).trace = s.trace := rfl
@[simp] theorem enterTick_fault (s : State) : (enterTick s).fault = s.fault := rfl
@[simp] theorem enterTick_tickPending (s : State) : (enterTick s).tickPending = false := rfl
@[simp] theorem enterTick_ctx (s : State) : (enterTick s).ctx = .tk := rfl
@[simp] theorem enterTick_responses (s : State) : (enterTick s).responses = s.responses := rfl
@[simp] theorem enterTick_commands (s : State) : (enterTick s).commands = s.commands := rfl
@[simp] theorem enterTick_position (s : State) : (enterTick s).position = s.position := rfl
@[simp] theorem enterTick_firings (s : State) : (enterTick s).firings = s.firings := rfl
@[simp] theorem enterTick_faulting (s : State) : (enterTick s).faulting = s.faulting := rfl
@[simp] theorem readBuf_enterTick (q : Position) (s : State) : readBuf q (enterTick s) = readBuf q s := rfl
@[simp] theorem readLatch_enterTick (l : Line) (s : State) : readLatch l (enterTick s) = readLatch l s := by cases l <;> rfl

/-! ## returnFromTick -/

@[simp] theorem returnFromTick_present (s : State) : (returnFromTick s).present = s.present := rfl
@[simp] theorem returnFromTick_buf (s : State) : (returnFromTick s).buf = s.buf := rfl
@[simp] theorem returnFromTick_ptr (s : State) : (returnFromTick s).ptr = s.ptr := rfl
@[simp] theorem returnFromTick_segOut (s : State) : (returnFromTick s).segOut = s.segOut := rfl
@[simp] theorem returnFromTick_digOut (s : State) : (returnFromTick s).digOut = s.digOut := rfl
@[simp] theorem returnFromTick_trace (s : State) : (returnFromTick s).trace = s.trace := rfl
@[simp] theorem returnFromTick_fault (s : State) : (returnFromTick s).fault = s.fault := rfl
@[simp] theorem returnFromTick_tickPending (s : State) : (returnFromTick s).tickPending = s.tickPending := rfl
@[simp] theorem returnFromTick_ctx (s : State) : (returnFromTick s).ctx = .fg := rfl
@[simp] theorem returnFromTick_responses (s : State) : (returnFromTick s).responses = s.responses := rfl
@[simp] theorem returnFromTick_commands (s : State) : (returnFromTick s).commands = s.commands := rfl
@[simp] theorem returnFromTick_position (s : State) : (returnFromTick s).position = s.position := rfl
@[simp] theorem returnFromTick_firings (s : State) : (returnFromTick s).firings = s.firings := rfl
@[simp] theorem returnFromTick_faulting (s : State) : (returnFromTick s).faulting = s.faulting := rfl
@[simp] theorem readBuf_returnFromTick (q : Position) (s : State) : readBuf q (returnFromTick s) = readBuf q s := rfl
@[simp] theorem readLatch_returnFromTick (l : Line) (s : State) : readLatch l (returnFromTick s) = readLatch l s := by cases l <;> rfl

/-! ## holdFiring -/

@[simp] theorem holdFiring_present (b : Bool) (s : State) : (holdFiring b s).present = s.present := rfl
@[simp] theorem holdFiring_buf (b : Bool) (s : State) : (holdFiring b s).buf = s.buf := rfl
@[simp] theorem holdFiring_ptr (b : Bool) (s : State) : (holdFiring b s).ptr = s.ptr := rfl
@[simp] theorem holdFiring_segOut (b : Bool) (s : State) : (holdFiring b s).segOut = s.segOut := rfl
@[simp] theorem holdFiring_digOut (b : Bool) (s : State) : (holdFiring b s).digOut = s.digOut := rfl
@[simp] theorem holdFiring_trace (b : Bool) (s : State) : (holdFiring b s).trace = s.trace := rfl
@[simp] theorem holdFiring_fault (b : Bool) (s : State) : (holdFiring b s).fault = s.fault := rfl
@[simp] theorem holdFiring_tickPending (b : Bool) (s : State) : (holdFiring b s).tickPending = (s.tickPending || b) := rfl
@[simp] theorem holdFiring_ctx (b : Bool) (s : State) : (holdFiring b s).ctx = s.ctx := rfl
@[simp] theorem holdFiring_responses (b : Bool) (s : State) : (holdFiring b s).responses = s.responses := rfl
@[simp] theorem holdFiring_commands (b : Bool) (s : State) : (holdFiring b s).commands = s.commands := rfl
@[simp] theorem holdFiring_position (b : Bool) (s : State) : (holdFiring b s).position = s.position := rfl
@[simp] theorem holdFiring_firings (b : Bool) (s : State) : (holdFiring b s).firings = s.firings := rfl
@[simp] theorem holdFiring_faulting (b : Bool) (s : State) : (holdFiring b s).faulting = s.faulting := rfl
@[simp] theorem readBuf_holdFiring (q : Position) (b : Bool) (s : State) : readBuf q (holdFiring b s) = readBuf q s := rfl
@[simp] theorem readLatch_holdFiring (l : Line) (b : Bool) (s : State) : readLatch l (holdFiring b s) = readLatch l s := by cases l <;> rfl

/-! ## advance -/

@[simp] theorem advance_present (s : State) : (advance s).present = s.present := rfl
@[simp] theorem advance_buf (s : State) : (advance s).buf = s.buf := rfl
@[simp] theorem advance_ptr (s : State) : (advance s).ptr = s.ptr.next := rfl
@[simp] theorem advance_segOut (s : State) : (advance s).segOut = s.segOut := rfl
@[simp] theorem advance_digOut (s : State) : (advance s).digOut = s.digOut := rfl
@[simp] theorem advance_trace (s : State) : (advance s).trace = s.trace := rfl
@[simp] theorem advance_fault (s : State) : (advance s).fault = s.fault := rfl
@[simp] theorem advance_tickPending (s : State) : (advance s).tickPending = s.tickPending := rfl
@[simp] theorem advance_ctx (s : State) : (advance s).ctx = s.ctx := rfl
@[simp] theorem advance_responses (s : State) : (advance s).responses = s.responses := rfl
@[simp] theorem advance_commands (s : State) : (advance s).commands = s.commands := rfl
@[simp] theorem advance_position (s : State) : (advance s).position = s.position := rfl
@[simp] theorem advance_firings (s : State) : (advance s).firings = s.firings := rfl
@[simp] theorem advance_faulting (s : State) : (advance s).faulting = s.faulting := rfl
@[simp] theorem readBuf_advance (q : Position) (s : State) : readBuf q (advance s) = readBuf q s := rfl
@[simp] theorem readLatch_advance (l : Line) (s : State) : readLatch l (advance s) = readLatch l s := by cases l <;> rfl

/-! ## createShared -/

@[simp] theorem createShared_present (s : State) : (createShared s).present = true := rfl
@[simp] theorem createShared_buf (s : State) : (createShared s).buf = PerDigit.tabulate fun _ => 0x00#8 := rfl
@[simp] theorem createShared_ptr (s : State) : (createShared s).ptr = .d1 := rfl
@[simp] theorem createShared_segOut (s : State) : (createShared s).segOut = PerSegment.fill .unspec := rfl
@[simp] theorem createShared_digOut (s : State) : (createShared s).digOut = PerDigit.tabulate fun _ => .unspec := rfl
@[simp] theorem createShared_trace (s : State) : (createShared s).trace = s.trace := rfl
@[simp] theorem createShared_fault (s : State) : (createShared s).fault = s.fault := rfl
@[simp] theorem createShared_tickPending (s : State) : (createShared s).tickPending = s.tickPending := rfl
@[simp] theorem createShared_ctx (s : State) : (createShared s).ctx = s.ctx := rfl
@[simp] theorem createShared_responses (s : State) : (createShared s).responses = s.responses := rfl
@[simp] theorem createShared_commands (s : State) : (createShared s).commands = s.commands := rfl
@[simp] theorem createShared_position (s : State) : (createShared s).position = s.position := rfl
@[simp] theorem createShared_firings (s : State) : (createShared s).firings = s.firings := rfl
@[simp] theorem createShared_faulting (s : State) : (createShared s).faulting = s.faulting := rfl

/-! ## endCommand -/

@[simp] theorem endCommand_present (w : Word) (b : Bool) (s : State) : (endCommand w b s).present = s.present := rfl
@[simp] theorem endCommand_buf (w : Word) (b : Bool) (s : State) : (endCommand w b s).buf = s.buf := rfl
@[simp] theorem endCommand_ptr (w : Word) (b : Bool) (s : State) : (endCommand w b s).ptr = s.ptr := rfl
@[simp] theorem endCommand_segOut (w : Word) (b : Bool) (s : State) : (endCommand w b s).segOut = s.segOut := rfl
@[simp] theorem endCommand_digOut (w : Word) (b : Bool) (s : State) : (endCommand w b s).digOut = s.digOut := rfl
@[simp] theorem endCommand_trace (w : Word) (b : Bool) (s : State) : (endCommand w b s).trace = s.trace := rfl
@[simp] theorem endCommand_fault (w : Word) (b : Bool) (s : State) : (endCommand w b s).fault = s.fault := rfl
@[simp] theorem endCommand_tickPending (w : Word) (b : Bool) (s : State) : (endCommand w b s).tickPending = (s.tickPending || b) := rfl
@[simp] theorem endCommand_ctx (w : Word) (b : Bool) (s : State) : (endCommand w b s).ctx = s.ctx := rfl
@[simp] theorem endCommand_responses (w : Word) (b : Bool) (s : State) : (endCommand w b s).responses = s.responses := rfl
@[simp] theorem endCommand_commands (w : Word) (b : Bool) (s : State) : (endCommand w b s).commands = s.commands := rfl
@[simp] theorem endCommand_position (w : Word) (b : Bool) (s : State) : (endCommand w b s).position = s.position + 1 := rfl
@[simp] theorem endCommand_firings (w : Word) (b : Bool) (s : State) : (endCommand w b s).firings = s.firings := rfl
@[simp] theorem endCommand_faulting (w : Word) (b : Bool) (s : State) : (endCommand w b s).faulting = if halted s then some { word := w, position := s.position } else none := rfl
@[simp] theorem readBuf_endCommand (q : Position) (w : Word) (b : Bool) (s : State) : readBuf q (endCommand w b s) = readBuf q s := rfl
@[simp] theorem readLatch_endCommand (l : Line) (w : Word) (b : Bool) (s : State) : readLatch l (endCommand w b s) = readLatch l s := by cases l <;> rfl

/-! ## dropSlot -/

@[simp] theorem dropSlot_present (s : State) : (dropSlot s).present = s.present := rfl
@[simp] theorem dropSlot_buf (s : State) : (dropSlot s).buf = s.buf := rfl
@[simp] theorem dropSlot_ptr (s : State) : (dropSlot s).ptr = s.ptr := rfl
@[simp] theorem dropSlot_segOut (s : State) : (dropSlot s).segOut = s.segOut := rfl
@[simp] theorem dropSlot_digOut (s : State) : (dropSlot s).digOut = s.digOut := rfl
@[simp] theorem dropSlot_trace (s : State) : (dropSlot s).trace = s.trace := rfl
@[simp] theorem dropSlot_fault (s : State) : (dropSlot s).fault = s.fault := rfl
@[simp] theorem dropSlot_tickPending (s : State) : (dropSlot s).tickPending = s.tickPending := rfl
@[simp] theorem dropSlot_ctx (s : State) : (dropSlot s).ctx = s.ctx := rfl
@[simp] theorem dropSlot_responses (s : State) : (dropSlot s).responses = s.responses := rfl
@[simp] theorem dropSlot_commands (s : State) : (dropSlot s).commands = s.commands := rfl
@[simp] theorem dropSlot_position (s : State) : (dropSlot s).position = s.position := rfl
@[simp] theorem dropSlot_firings (s : State) : (dropSlot s).firings = s.firings.tail := rfl
@[simp] theorem dropSlot_faulting (s : State) : (dropSlot s).faulting = s.faulting := rfl
@[simp] theorem readBuf_dropSlot (q : Position) (s : State) : readBuf q (dropSlot s) = readBuf q s := rfl
@[simp] theorem readLatch_dropSlot (l : Line) (s : State) : readLatch l (dropSlot s) = readLatch l s := by cases l <;> rfl

/-! ## dropCommand -/

@[simp] theorem dropCommand_present (s : State) : (dropCommand s).present = s.present := rfl
@[simp] theorem dropCommand_buf (s : State) : (dropCommand s).buf = s.buf := rfl
@[simp] theorem dropCommand_ptr (s : State) : (dropCommand s).ptr = s.ptr := rfl
@[simp] theorem dropCommand_segOut (s : State) : (dropCommand s).segOut = s.segOut := rfl
@[simp] theorem dropCommand_digOut (s : State) : (dropCommand s).digOut = s.digOut := rfl
@[simp] theorem dropCommand_trace (s : State) : (dropCommand s).trace = s.trace := rfl
@[simp] theorem dropCommand_fault (s : State) : (dropCommand s).fault = s.fault := rfl
@[simp] theorem dropCommand_tickPending (s : State) : (dropCommand s).tickPending = s.tickPending := rfl
@[simp] theorem dropCommand_ctx (s : State) : (dropCommand s).ctx = s.ctx := rfl
@[simp] theorem dropCommand_responses (s : State) : (dropCommand s).responses = s.responses := rfl
@[simp] theorem dropCommand_commands (s : State) : (dropCommand s).commands = s.commands.tail := rfl
@[simp] theorem dropCommand_position (s : State) : (dropCommand s).position = s.position := rfl
@[simp] theorem dropCommand_firings (s : State) : (dropCommand s).firings = s.firings := rfl
@[simp] theorem dropCommand_faulting (s : State) : (dropCommand s).faulting = s.faulting := rfl
@[simp] theorem readBuf_dropCommand (q : Position) (s : State) : readBuf q (dropCommand s) = readBuf q s := rfl
@[simp] theorem readLatch_dropCommand (l : Line) (s : State) : readLatch l (dropCommand s) = readLatch l s := by cases l <;> rfl

/-! ## presentWord -/

@[simp] theorem presentWord_present (w : Word) (s : State) : (presentWord w s).present = s.present := rfl
@[simp] theorem presentWord_buf (w : Word) (s : State) : (presentWord w s).buf = s.buf := rfl
@[simp] theorem presentWord_ptr (w : Word) (s : State) : (presentWord w s).ptr = s.ptr := rfl
@[simp] theorem presentWord_segOut (w : Word) (s : State) : (presentWord w s).segOut = s.segOut := rfl
@[simp] theorem presentWord_digOut (w : Word) (s : State) : (presentWord w s).digOut = s.digOut := rfl
@[simp] theorem presentWord_trace (w : Word) (s : State) : (presentWord w s).trace = s.trace := rfl
@[simp] theorem presentWord_fault (w : Word) (s : State) : (presentWord w s).fault = none := rfl
@[simp] theorem presentWord_tickPending (w : Word) (s : State) : (presentWord w s).tickPending = false := rfl
@[simp] theorem presentWord_ctx (w : Word) (s : State) : (presentWord w s).ctx = s.ctx := rfl
@[simp] theorem presentWord_responses (w : Word) (s : State) : (presentWord w s).responses = s.responses := rfl
@[simp] theorem presentWord_commands (w : Word) (s : State) : (presentWord w s).commands = w :: s.commands := rfl
@[simp] theorem presentWord_position (w : Word) (s : State) : (presentWord w s).position = s.position := rfl
@[simp] theorem presentWord_firings (w : Word) (s : State) : (presentWord w s).firings = quietSlot :: s.firings := rfl
@[simp] theorem presentWord_faulting (w : Word) (s : State) : (presentWord w s).faulting = none := rfl
@[simp] theorem readBuf_presentWord (q : Position) (w : Word) (s : State) : readBuf q (presentWord w s) = readBuf q s := rfl
@[simp] theorem readLatch_presentWord (l : Line) (w : Word) (s : State) : readLatch l (presentWord w s) = readLatch l s := by cases l <;> rfl

/-! ## drive: one latch and the trace -/

@[simp] theorem drive_present (l : Line) (v : Level) (s : State) : (drive l v s).present = s.present := by cases l <;> rfl
@[simp] theorem drive_buf (l : Line) (v : Level) (s : State) : (drive l v s).buf = s.buf := by cases l <;> rfl
@[simp] theorem drive_ptr (l : Line) (v : Level) (s : State) : (drive l v s).ptr = s.ptr := by cases l <;> rfl
@[simp] theorem drive_trace (l : Line) (v : Level) (s : State) : (drive l v s).trace = s.trace ++ [{ line := l, level := v }] := by cases l <;> rfl
@[simp] theorem drive_fault (l : Line) (v : Level) (s : State) : (drive l v s).fault = s.fault := by cases l <;> rfl
@[simp] theorem drive_tickPending (l : Line) (v : Level) (s : State) : (drive l v s).tickPending = s.tickPending := by cases l <;> rfl
@[simp] theorem drive_ctx (l : Line) (v : Level) (s : State) : (drive l v s).ctx = s.ctx := by cases l <;> rfl
@[simp] theorem drive_responses (l : Line) (v : Level) (s : State) : (drive l v s).responses = s.responses := by cases l <;> rfl
@[simp] theorem drive_commands (l : Line) (v : Level) (s : State) : (drive l v s).commands = s.commands := by cases l <;> rfl
@[simp] theorem drive_position (l : Line) (v : Level) (s : State) : (drive l v s).position = s.position := by cases l <;> rfl
@[simp] theorem drive_firings (l : Line) (v : Level) (s : State) : (drive l v s).firings = s.firings := by cases l <;> rfl
@[simp] theorem drive_faulting (l : Line) (v : Level) (s : State) : (drive l v s).faulting = s.faulting := by cases l <;> rfl
@[simp] theorem readBuf_drive (q : Position) (l : Line) (v : Level) (s : State) :
    readBuf q (drive l v s) = readBuf q s := by cases l <;> rfl

end Sys2Proof.Machine
end

