-- ==== Sys2Proof/Laws/Ops.lean ====
section
/-! SUPPORT. What each shared operation does, said once: the indexed stores, the line writes, and the sequences of them. -/

namespace Sys2Proof

/-! ## Index conversions -/

theorem Position.index_ofIndex (i : Nat) : (Position.ofIndex i).index = i % 4 := by
  have h : i % 4 < 4 := Nat.mod_lt _ (by decide)
  unfold Position.ofIndex
  generalize i % 4 = k at h
  rcases k with _ | _ | _ | _ | k <;> first | rfl | omega

@[simp] theorem Position.ofIndex_index (p : Position) : Position.ofIndex p.index = p := by cases p <;> rfl

theorem Position.ofIndex_mod (i : Nat) : Position.ofIndex (i % 4) = Position.ofIndex i := by
  simp [Position.ofIndex]

theorem Segment.index_ofIndex (i : Nat) : (Segment.ofIndex i).index = i % 8 := by
  have h : i % 8 < 8 := Nat.mod_lt _ (by decide)
  unfold Segment.ofIndex
  generalize i % 8 = k at h
  rcases k with _ | _ | _ | _ | _ | _ | _ | _ | k <;> first | rfl | omega

@[simp] theorem Segment.ofIndex_index (sg : Segment) : Segment.ofIndex sg.index = sg := by cases sg <;> rfl

theorem Segment.ofIndex_mod (i : Nat) : Segment.ofIndex (i % 8) = Segment.ofIndex i := by
  simp [Segment.ofIndex]

theorem Position.index_lt (p : Position) : p.index < 4 := by cases p <;> decide

theorem Segment.index_lt (sg : Segment) : sg.index < 8 := by cases sg <;> decide

theorem Position.index_next (p : Position) : p.next.index = (p.index + 1) % 4 := by cases p <;> rfl

/-- A line's number names the line. -/
@[simp] theorem Line.ofNumber_number (l : Line) : Line.ofNumber l.number = some l := by
  rcases l with sg | p
  · cases sg <;> rfl
  · cases p <;> rfl

theorem Line.number_ofNumber {n : Nat} {l : Line} (h : Line.ofNumber n = some l) : l.number = n := by
  unfold Line.ofNumber at h
  split at h
  · obtain rfl := Option.some.inj h
    simp only [Line.number, Segment.index_ofIndex]; omega
  · split at h
    · obtain rfl := Option.some.inj h
      simp only [Line.number, Position.index_ofIndex]; omega
    · cases h

theorem Line.ofNumber_eq_none {n : Nat} : Line.ofNumber n = none ↔ 11 < n := by
  unfold Line.ofNumber; split <;> [skip; split] <;> simp <;> omega

namespace Machine

/-! ## Indexed stores -/

theorem PerDigit.get_set {α : Type} (v : PerDigit α) (p q : Position) (x : α) :
    (v.set p x).get q = if q = p then x else v.get q := by cases p <;> cases q <;> rfl

@[simp] theorem PerDigit.get_tabulate {α : Type} (f : Position → α) (p : Position) :
    (PerDigit.tabulate f).get p = f p := by cases p <;> rfl

/-- A store is what it reads at each position. -/
theorem PerDigit.ext_get {α : Type} {v w : PerDigit α} (h : ∀ p, v.get p = w.get p) : v = w := by
  have h1 := h .d1; have h2 := h .d2; have h3 := h .d3; have h4 := h .d4
  cases v; cases w; simp_all [PerDigit.get]

theorem PerSegment.get_set {α : Type} (v : PerSegment α) (p q : Segment) (x : α) :
    (v.set p x).get q = if q = p then x else v.get q := by cases p <;> cases q <;> rfl

@[simp] theorem PerSegment.get_fill {α : Type} (x : α) (sg : Segment) : (PerSegment.fill x).get sg = x := by
  cases sg <;> rfl

theorem PerSegment.ext_get {α : Type} {v w : PerSegment α} (h : ∀ sg, v.get sg = w.get sg) : v = w := by
  have h1 := h .a; have h2 := h .b; have h3 := h .c; have h4 := h .d
  have h5 := h .e; have h6 := h .f; have h7 := h .g; have h8 := h .dp
  cases v; cases w; simp_all [PerSegment.get]

/-! ## Buffers -/

theorem readBuf_writeBuf (p q : Position) (m : Byte) (s : State) :
    readBuf q (writeBuf p m s) = if q = p then m else readBuf q s := PerDigit.get_set _ _ _ _

@[simp] theorem readBuf_writeAllBufs (f : Position → Byte) (q : Position) (s : State) :
    readBuf q (writeAllBufs f s) = f q := PerDigit.get_tabulate _ _

@[simp] theorem readBuf_createShared (q : Position) (s : State) : readBuf q (createShared s) = 0x00#8 :=
  PerDigit.get_tabulate _ _

/-! ## Latches -/

@[simp] theorem readLatch_unspecAll (l : Line) (s : State) : readLatch l (unspecAll s) = .unspec := by
  rcases l with sg | p
  · exact PerSegment.get_fill _ _
  · exact PerDigit.get_tabulate _ _

@[simp] theorem readLatch_createShared (l : Line) (s : State) : readLatch l (createShared s) = .unspec := by
  rcases l with sg | p
  · exact PerSegment.get_fill _ _
  · exact PerDigit.get_tabulate _ _

theorem readLatch_drive (l k : Line) (v : Level) (s : State) :
    readLatch k (drive l v s) = if l = k then v else readLatch k s := by
  rcases l with x | x <;> rcases k with y | y
  · exact (PerSegment.get_set s.segOut x y v).trans (by simp [readLatch, eq_comm])
  · rfl
  · rfl
  · exact (PerDigit.get_set s.digOut x y v).trans (by simp [readLatch, eq_comm])

/-! ## Sequences of line writes -/

@[simp] theorem driveAll_nil (s : State) : driveAll [] s = s := rfl

@[simp] theorem driveAll_cons (e : LineEvent) (es : List LineEvent) (s : State) :
    driveAll (e :: es) s = driveAll es (drive e.line e.level s) := rfl

theorem drive_eq_driveAll (l : Line) (v : Level) (s : State) :
    drive l v s = driveAll [{ line := l, level := v }] s := rfl

@[simp] theorem levelAfter_nil (l : Line) (v : Level) : levelAfter l v [] = v := rfl

@[simp] theorem levelAfter_cons (l : Line) (v : Level) (e : LineEvent) (es : List LineEvent) :
    levelAfter l v (e :: es) = levelAfter l (if e.line = l then e.level else v) es := rfl

theorem levelAfter_append (l : Line) (v : Level) (es fs : List LineEvent) :
    levelAfter l v (es ++ fs) = levelAfter l (levelAfter l v es) fs := List.foldl_append ..

/-- After a sequence of line writes a latch holds what the sequence leaves on its line (R27, R31). -/
theorem readLatch_driveAll (es : List LineEvent) (l : Line) (s : State) :
    readLatch l (driveAll es s) = levelAfter l (readLatch l s) es := by
  induction es generalizing s with
  | nil => rfl
  | cons e es ih => rw [driveAll_cons, ih, readLatch_drive, levelAfter_cons]

@[simp] theorem driveAll_trace (es : List LineEvent) (s : State) : (driveAll es s).trace = s.trace ++ es := by
  induction es generalizing s with
  | nil => simp
  | cons e es ih => simp [ih]

/-- A sequence of line writes changes the latches and the trace alone. -/
theorem driveAll_other (es : List LineEvent) (s : State) :
    SameShared s (driveAll es s) ∧ SameStatus s (driveAll es s) := by
  induction es generalizing s with
  | nil => exact ⟨⟨rfl, rfl, fun _ => rfl⟩, rfl, rfl, rfl, rfl, rfl, rfl, rfl, rfl⟩
  | cons e es ih =>
    obtain ⟨⟨h1, h2, h3⟩, h4, h5, h6, h7, h8, h9, h10, h11⟩ := ih (drive e.line e.level s)
    simp only [driveAll_cons]
    exact ⟨⟨by simp [h1], by simp [h2], fun p => by simp [h3 p]⟩, by simp [h4], by simp [h5], by simp [h6],
      by simp [h7], by simp [h8], by simp [h9], by simp [h10], by simp [h11]⟩

@[simp] theorem driveAll_present (es : List LineEvent) (s : State) : (driveAll es s).present = s.present :=
  (driveAll_other es s).1.1

@[simp] theorem driveAll_ptr (es : List LineEvent) (s : State) : (driveAll es s).ptr = s.ptr :=
  (driveAll_other es s).1.2.1

@[simp] theorem readBuf_driveAll (es : List LineEvent) (p : Position) (s : State) :
    readBuf p (driveAll es s) = readBuf p s := (driveAll_other es s).1.2.2 p

@[simp] theorem driveAll_fault (es : List LineEvent) (s : State) : (driveAll es s).fault = s.fault :=
  (driveAll_other es s).2.1

@[simp] theorem driveAll_responses (es : List LineEvent) (s : State) : (driveAll es s).responses = s.responses :=
  (driveAll_other es s).2.2.1

theorem driveAll_sameInputs (es : List LineEvent) (s : State) : SameInputs s (driveAll es s) :=
  (driveAll_other es s).2.2.2

/-- Everything a sequence of line writes does. -/
theorem driveAll_writes (es : List LineEvent) (s : State) : Writes es s (driveAll es s) :=
  ⟨driveAll_trace es s, fun l => readLatch_driveAll es l s, (driveAll_other es s).1, (driveAll_other es s).2⟩

theorem driveAll_append (es fs : List LineEvent) (s : State) :
    driveAll (es ++ fs) s = driveAll fs (driveAll es s) := List.foldl_append ..

/-! ## The sequences the commands share -/

@[simp] theorem digitsOffWrites_dig (p : Position) (v : Level) : levelAfter (.dig p) v digitsOffWrites = .low := by
  cases p <;> rfl

@[simp] theorem digitsOffWrites_seg (sg : Segment) (v : Level) : levelAfter (.seg sg) v digitsOffWrites = v := rfl

@[simp] theorem maskWrites_seg (m : Byte) (sg : Segment) (v : Level) :
    levelAfter (.seg sg) v (maskWrites m) = patternLevel m sg := by cases sg <;> rfl

@[simp] theorem maskWrites_dig (m : Byte) (p : Position) (v : Level) : levelAfter (.dig p) v (maskWrites m) = v := rfl

theorem segmentsOffWrites_eq : segmentsOffWrites = maskWrites 0x00#8 := by decide

@[simp] theorem digitsOffWrites_length : digitsOffWrites.length = 4 := rfl

@[simp] theorem maskWrites_length (m : Byte) : (maskWrites m).length = 8 := rfl

@[simp] theorem showWrites_length (p : Position) (m : Byte) : (showWrites p m).length = 13 := rfl

/-- After SHOW's writes one digit is High (R185). -/
theorem showWrites_dig (p q : Position) (m : Byte) (v : Level) :
    levelAfter (.dig q) v (showWrites p m) = if q = p then .high else .low := by
  simp [showWrites, levelAfter_append, digitLevel, eq_comm]

/-- After SHOW's writes the segment lines hold the mask (R185). -/
theorem showWrites_seg (p : Position) (sg : Segment) (m : Byte) (v : Level) :
    levelAfter (.seg sg) v (showWrites p m) = patternLevel m sg := by
  simp [showWrites, levelAfter_append]

/-! ## The absent state -/

@[simp] theorem whenPresent_present (f : State → State) {s : State} (h : s.present = true) :
    whenPresent f s = f s := by simp [whenPresent, h]

@[simp] theorem whenPresent_absent (f : State → State) {s : State} (h : s.present = false) :
    whenPresent f s = s := by simp [whenPresent, h]

/-! ## Faults -/

/-- A fault is precise (R230). -/
theorem raiseFault_onlyFaults (c : FaultCode) (s : State) : OnlyFaults c s (raiseFault c s) :=
  ⟨rfl, ⟨rfl, rfl, fun _ => rfl⟩, ⟨fun l => readLatch_raiseFault l c s, rfl⟩, rfl, rfl, rfl, rfl, rfl, rfl, rfl⟩

/-! ## Operands -/

theorem digitOperand_legal {a : Byte} (h : a.toNat ≤ 15) : digitOperand a = some (BitVec.ofNat 4 a.toNat) := by
  simp [digitOperand]; omega

theorem digitOperand_illegal {a : Byte} (h : 15 < a.toNat) : digitOperand a = none := by
  simp [digitOperand]; omega

theorem lineOperand_illegal {a : Byte} (h : 11 < a.toNat) : lineOperand a = none := Line.ofNumber_eq_none.2 h

theorem lineOperand_legal {a : Byte} (h : a.toNat ≤ 11) : ∃ l, lineOperand a = some l ∧ l.number = a.toNat := by
  cases hl : lineOperand a with
  | none => exact absurd (Line.ofNumber_eq_none.1 hl) (by omega)
  | some l => exact ⟨l, rfl, Line.number_ofNumber hl⟩

theorem baseOperand_legal {b : Byte} (h : 2 ≤ b.toNat ∧ b.toNat ≤ 16) : baseOperand b = some b.toNat := by
  simp [baseOperand, Config.baseMin, Config.baseMax, h]

theorem baseOperand_illegal {b : Byte} (h : b.toNat < 2 ∨ 16 < b.toNat) : baseOperand b = none := by
  have h' : ¬ (2 ≤ b.toNat ∧ b.toNat ≤ 16) := by omega
  exact if_neg h'

/-- A digit of SETNUM is below its base (R151). -/
theorem digitAt_lt {value base : Nat} (h : 0 < base) (p : Position) : digitAt value base p < base := Nat.mod_lt _ h

/-! ## The ROM -/

/-- Bit 7 of every entry is clear, for any value of the parameter (R103). -/
theorem SegRom.entry_bit7 (rom : SegRom) (v : BitVec 4) : (rom.entry v).getLsbD 7 = false := by
  unfold SegRom.entry; split <;> simp

end Machine

end Sys2Proof
end

