-- ==== Sys2Proof/Laws/Exec.lean ====
section
/-! SUPPORT. Everything a command can do, and everything a step can do, each said once. -/

namespace Sys2Proof.Machine

/-- A line write that a command other than a toggle may make: to a known level its line can hold (R32). -/
def KnownWrite (e : LineEvent) : Prop := LegalLevel e.line e.level ∧ e.level ≠ .unspec

/-- A sequence of line writes that the command may make: at most thirteen (R57), each to a level its line can hold (R32), UNSPEC only
from a toggle (R31). -/
def LegalWrites (i : Instr) (es : List LineEvent) : Prop :=
  es.length ≤ 13 ∧ ∀ e ∈ es, LegalLevel e.line e.level ∧ (e.level = .unspec → ∃ a, i = .pintgl a)

theorem legalWrites_of_known {i : Instr} {es : List LineEvent} (hl : es.length ≤ 13)
    (h : ∀ e ∈ es, KnownWrite e) : LegalWrites i es :=
  ⟨hl, fun e he => ⟨(h e he).1, fun hu => absurd hu (h e he).2⟩⟩

theorem segmentLevel_known (sg : Segment) (on : Bool) : KnownWrite ⟨.seg sg, segmentLevel on⟩ := by
  cases on <;> simp [KnownWrite, LegalLevel, segmentLevel]

theorem digitLevel_known (p : Position) (on : Bool) : KnownWrite ⟨.dig p, digitLevel on⟩ := by
  cases on <;> simp [KnownWrite, LegalLevel, digitLevel]

theorem setHighLevel_known (l : Line) : KnownWrite ⟨l, setHighLevel l⟩ := by
  cases l <;> simp [KnownWrite, LegalLevel, setHighLevel]

theorem setLowLevel_known (l : Line) : KnownWrite ⟨l, setLowLevel l⟩ := by
  cases l <;> simp [KnownWrite, LegalLevel, setLowLevel]

theorem toggledLevel_legal (l : Line) (v : Level) : LegalLevel l (toggledLevel l v) := by
  cases l <;> cases v <;> simp [LegalLevel, toggledLevel]

theorem digitsOffWrites_known : ∀ e ∈ digitsOffWrites, KnownWrite e := by
  simp only [digitsOffWrites, List.forall_mem_map]
  exact fun p _ => digitLevel_known p false

theorem maskWrites_known (m : Byte) : ∀ e ∈ maskWrites m, KnownWrite e := by
  simp only [maskWrites, List.forall_mem_map]
  exact fun sg _ => segmentLevel_known sg _

theorem showWrites_known (p : Position) (m : Byte) : ∀ e ∈ showWrites p m, KnownWrite e := by
  intro e he
  simp only [showWrites, List.mem_append, List.mem_singleton] at he
  rcases he with (he | he) | rfl
  · exact digitsOffWrites_known e he
  · exact maskWrites_known m e he
  · exact digitLevel_known p true

theorem legalWrites_single {i : Instr} {l : Line} {v : Level} (h : KnownWrite ⟨l, v⟩) : LegalWrites i [⟨l, v⟩] :=
  legalWrites_of_known (by simp) (by simpa using h)

/-- Everything a command can do in one execution. -/
inductive Effect : Instr → State → State → Prop where
  /-- a no-op of the absent state (R240) -/
  | noop {i : Instr} {s : State} (absent : s.present = false) (notInit : i ≠ .init) (notEnc : ∀ a, i ≠ .enc a) :
      Effect i s s
  /-- INIT of an absent state (R150) -/
  | create {s : State} (absent : s.present = false) : Effect .init s (createShared s)
  /-- a range fault or REINIT (R75, R150) -/
  | fault {i : Instr} {s : State} (c : FaultCode) (why : i.wf = false ∨ i = .init ∧ s.present = true) :
      Effect i s (raiseFault c s)
  /-- SETNUM (R151) -/
  | number {v : Value} {b : Byte} {s : State} (present : s.present = true)
      (range : 2 ≤ b.toNat ∧ b.toNat ≤ 16) :
      Effect (.setnum v b) s (writeAllBufs (digitMask blockRom v.toNat b.toNat) s)
  /-- SETDP (R153) -/
  | point {a : Byte} {s : State} (present : s.present = true) :
      Effect (.setdp a) s (writeBuf (positionOperand a) (readBuf (positionOperand a) s ||| 0x80#8) s)
  /-- line writes alone: SHOW, the driver and the pin commands -/
  | lines {i : Instr} {s : State} {es : List LineEvent} (present : s.present = true) (legal : LegalWrites i es)
      (notInit : i ≠ .init) (notTick : i ≠ .tick) (notNumber : ∀ v b, i ≠ .setnum v b) (notPoint : ∀ a, i ≠ .setdp a) (notEnc : ∀ a, i ≠ .enc a) :
      Effect i s (driveAll es s)
  /-- TICK (R182) -/
  | tick {s : State} (present : s.present = true) :
      Effect .tick s (driveAll (showWrites s.ptr.next (readBuf s.ptr.next s)) (advance s))
  /-- ENC (R102) -/
  | encode {a : Byte} {s : State} (v : BitVec 4) (operand : digitOperand a = some v) :
      Effect (.enc a) s (respond (segRom v) s)

/-- Line writes where the state is present, nothing where it is absent. -/
theorem effect_whenPresent {i : Instr} {s : State} {es : List LineEvent} (legal : LegalWrites i es) (h1 : i ≠ .init)
    (h2 : i ≠ .tick) (h3 : ∀ v b, i ≠ .setnum v b) (h4 : ∀ a, i ≠ .setdp a) (h5 : ∀ a, i ≠ .enc a) :
    Effect i s (whenPresent (driveAll es) s) := by
  cases hp : s.present
  · rw [whenPresent_absent _ hp]; exact .noop hp h1 h5
  · rw [whenPresent_present _ hp]; exact .lines hp legal h1 h2 h3 h4 h5

/-- The pin commands: line writes, a no-op or LINE_RANGE. -/
theorem effect_onLine {i : Instr} {s : State} {a : Byte} {level : Line → State → Level}
    (legal : ∀ l, LegalWrites i [⟨l, level l s⟩]) (hwf : i.wf = decide (a.toNat < Config.nLines)) (h1 : i ≠ .init)
    (h2 : i ≠ .tick) (h3 : ∀ v b, i ≠ .setnum v b) (h4 : ∀ a, i ≠ .setdp a) (h5 : ∀ a, i ≠ .enc a) :
    ∃ t, onLine a (fun l u => drive l (level l u) u) s = .next t ∧ Effect i s t := by
  unfold onLine
  cases hl : lineOperand a with
  | none =>
    refine ⟨_, rfl, .fault _ (.inl ?_)⟩
    rw [hwf, decide_eq_false_iff_not]
    have := Line.ofNumber_eq_none.1 hl
    simp only [Config.nLines]; omega
  | some l =>
    refine ⟨_, rfl, ?_⟩
    exact effect_whenPresent (es := [⟨l, level l s⟩]) (legal l) h1 h2 h3 h4 h5

/-- Every command answers a next state, and it is one of the effects above. -/
theorem exec_effect (i : Instr) (s : State) : ∃ t, exec i s = .next t ∧ Effect i s t := by
  cases i with
  | init =>
    cases hp : s.present
    · exact ⟨_, by simp only [exec, execInit, hp]; rfl, .create hp⟩
    · exact ⟨_, by simp only [exec, execInit, hp]; rfl, .fault .reinit (.inr ⟨rfl, hp⟩)⟩
  | setnum v b =>
    by_cases hb : 2 ≤ b.toNat ∧ b.toNat ≤ 16
    · cases hp : s.present
      · exact ⟨s, by simp [exec, execSetnum, baseOperand_legal hb, hp], .noop hp (by simp) (by simp)⟩
      · exact ⟨_, by simp only [exec, execSetnum, baseOperand_legal hb, whenPresent_present _ hp]; rfl, .number hp hb⟩
    · refine ⟨raiseFault .baseRange s, ?_, .fault _ (.inl ?_)⟩
      · simp [exec, execSetnum, baseOperand_illegal (b := b) (by omega)]
      · exact decide_eq_false hb
  | setdp a =>
    cases hp : s.present
    · exact ⟨s, by simp [exec, execSetdp, hp], .noop hp (by simp) (by simp)⟩
    · exact ⟨_, by simp only [exec, execSetdp, whenPresent_present _ hp], .point hp⟩
  | showPos a =>
    exact ⟨_, rfl, effect_whenPresent (es := showWrites (positionOperand a) (readBuf (positionOperand a) s))
      (legalWrites_of_known (by simp) (showWrites_known _ _)) (by simp) (by simp) (by simp) (by simp) (by simp)⟩
  | tick =>
    cases hp : s.present
    · exact ⟨s, by simp [exec, execTick, hp], .noop hp (by simp) (by simp)⟩
    · exact ⟨_, by simp only [exec, execTick, whenPresent_present _ hp]; rfl, .tick hp⟩
  | digen a =>
    exact ⟨_, rfl, effect_whenPresent (es := [⟨.dig (positionOperand a), digitLevel true⟩])
      (legalWrites_single (digitLevel_known _ _)) (by simp) (by simp) (by simp) (by simp) (by simp)⟩
  | digdis a =>
    exact ⟨_, rfl, effect_whenPresent (es := [⟨.dig (positionOperand a), digitLevel false⟩])
      (legalWrites_single (digitLevel_known _ _)) (by simp) (by simp) (by simp) (by simp) (by simp)⟩
  | segen a =>
    exact ⟨_, rfl, effect_whenPresent (es := [⟨.seg (segmentOperand a), segmentLevel true⟩])
      (legalWrites_single (segmentLevel_known _ _)) (by simp) (by simp) (by simp) (by simp) (by simp)⟩
  | segdis a =>
    exact ⟨_, rfl, effect_whenPresent (es := [⟨.seg (segmentOperand a), segmentLevel false⟩])
      (legalWrites_single (segmentLevel_known _ _)) (by simp) (by simp) (by simp) (by simp) (by simp)⟩
  | digdisall =>
    exact ⟨_, rfl, effect_whenPresent (legalWrites_of_known (by simp) digitsOffWrites_known)
      (by simp) (by simp) (by simp) (by simp) (by simp)⟩
  | segdisall =>
    refine ⟨_, rfl, effect_whenPresent ?_ (by simp) (by simp) (by simp) (by simp) (by simp)⟩
    rw [segmentsOffWrites_eq]; exact (legalWrites_of_known (by simp) (maskWrites_known _))
  | apply a =>
    exact ⟨_, rfl, effect_whenPresent (legalWrites_of_known (by simp) (maskWrites_known _))
      (by simp) (by simp) (by simp) (by simp) (by simp)⟩
  | encapply a =>
    by_cases ha : a.toNat ≤ 15
    · refine ⟨whenPresent (driveAll (maskWrites (segRom (BitVec.ofNat 4 a.toNat)))) s,
        by simp only [exec, execEncapply, digitOperand_legal ha], ?_⟩
      exact effect_whenPresent (legalWrites_of_known (by simp) (maskWrites_known _)) (by simp) (by simp) (by simp) (by simp) (by simp)
    · refine ⟨raiseFault .digitRange s, ?_, .fault _ (.inl ?_)⟩
      · simp [exec, execEncapply, digitOperand_illegal (a := a) (by omega)]
      · exact decide_eq_false (by simp only [Config.romEntries]; omega)
  | enc a =>
    by_cases ha : a.toNat ≤ 15
    · exact ⟨_, by simp only [exec, execEnc, digitOperand_legal ha], .encode _ (digitOperand_legal ha)⟩
    · refine ⟨raiseFault .digitRange s, ?_, .fault _ (.inl ?_)⟩
      · simp [exec, execEnc, digitOperand_illegal (a := a) (by omega)]
      · exact decide_eq_false (by simp only [Config.romEntries]; omega)
  | pinhi a =>
    exact effect_onLine (level := fun l _ => setHighLevel l) (fun l => legalWrites_single (setHighLevel_known l)) rfl
      (by simp) (by simp) (by simp) (by simp) (by simp)
  | pinlo a =>
    exact effect_onLine (level := fun l _ => setLowLevel l) (fun l => legalWrites_single (setLowLevel_known l)) rfl
      (by simp) (by simp) (by simp) (by simp) (by simp)
  | pintgl a =>
    exact effect_onLine (level := fun l u => toggledLevel l (readLatch l u))
      (fun l => ⟨by simp, by simpa using toggledLevel_legal l _⟩) rfl (by simp) (by simp) (by simp) (by simp) (by simp)

/-- A command's next state is one of its effects. -/
theorem effect_of_exec {i : Instr} {s t : State} (h : exec i s = .next t) : Effect i s t := by
  obtain ⟨u, hu, he⟩ := exec_effect i s
  rw [h] at hu
  cases hu
  exact he

/-- Everything a step that goes on can do (R233, R243, R244): one TICK of the trigger, one foreground word, or waiting. -/
theorem step_cases {s t : State} (h : step s = .next t) :
    s.fault = none ∧
    ((∃ u, tickDue s = true ∧ exec .tick (enterTick (dropSlot s)) = .next u
        ∧ t = holdFiring (nextSlot s).during (returnFromTick u))
    ∨ (∃ w rest u, tickDue s = false ∧ s.commands = w :: rest
        ∧ runWord exec w (dropCommand (dropSlot s)) = .next u ∧ t = endCommand w (nextSlot s).during u)
    ∨ (tickDue s = false ∧ s.commands = [] ∧ t = dropSlot s)) := by
  unfold step takeTurn arbitrate at h
  cases hf : s.fault with
  | some c => simp [hf] at h
  | none =>
    refine ⟨rfl, ?_⟩
    cases hb : tickDue s with
    | true =>
      refine .inl ?_
      simp only [hf, hb, if_true] at h
      cases hx : exec .tick (enterTick (dropSlot s)) with
      | next u => rw [hx] at h; cases h; exact ⟨u, rfl, rfl, rfl⟩
      | fault r => rw [hx] at h; cases h
      | refused r => rw [hx] at h; cases h
    | false =>
      cases hc : s.commands with
      | nil =>
        simp [hf, hb, hc] at h
        exact .inr (.inr ⟨rfl, rfl, h.symm⟩)
      | cons w rest =>
        refine .inr (.inl ?_)
        simp only [hf, hb, hc] at h
        cases hx : runWord exec w (dropCommand (dropSlot s)) with
        | next u => simp [hx, mapNext] at h; exact ⟨w, rest, u, rfl, rfl, hx, h.symm⟩
        | fault r => simp [hx, mapNext] at h
        | refused r => simp [hx, mapNext] at h

/-! ## Lists of commands -/

/-- A list of commands that runs, and then another. -/
theorem runCommands_append {cs : List Instr} {s t : State} (ds : List Instr) (h : runCommands cs s = .next t) :
    runCommands (cs ++ ds) s = runCommands ds t := by
  induction cs generalizing s with
  | nil => cases h; rfl
  | cons i is ih =>
    simp only [List.cons_append, runCommands] at h ⊢
    cases hx : exec i s with
    | next u => rw [hx] at h; exact ih h
    | fault r => rw [hx] at h; cases h
    | refused r => rw [hx] at h; cases h

/-! ## Runs of the host's machine -/

/-- The first step of a run on any machine. -/
theorem run_succ (M : Host.Core) (k : Nat) (s : M.State) :
    M.run (k + 1) s = match M.step s with
      | .next t => M.run k t
      | .fault r => .fault r
      | .refused r => .refused r := by
  rw [Host.Core.run] <;> cases M.step s <;> rfl

/-- A run's first step, where it answers a next state. -/
theorem core_run_next {s t : State} (k : Nat) (h : step s = .next t) :
    Host.Core.run Sys2Proof.core (k + 1) s = Host.Core.run Sys2Proof.core k t := by
  refine (run_succ Sys2Proof.core k s).trans ?_
  rw [show Sys2Proof.core.step s = .next t from h]

/-- A run's first step, where it stops with a fault. -/
theorem core_run_fault {s : State} {r : Fault} (k : Nat) (h : step s = .fault r) :
    Host.Core.run Sys2Proof.core (k + 1) s = .fault r := by
  refine (run_succ Sys2Proof.core k s).trans ?_
  rw [show Sys2Proof.core.step s = .fault r from h]

end Sys2Proof.Machine
end

