-- ==== Sys2Proof/Laws/PerInstr.lean ====
section
/-! SUPPORT. Statements about every command as syntax, one lemma a constructor. -/

namespace Sys2Proof.Laws

/-- The word of a command matches its row of the opcode table: `w AND mask = match` (R76). -/
def Spelling.Statement (i : Instr) : Prop := encode i &&& i.opcode.format.maskWord = i.opcode.matchWord

/-- The mask of the formats whose one operand is A, field by field. -/
theorem mask_a : 0xFF00FFFFFFFFFFFF#64 = assemble 0xFF#8 0x00#8 0xFF#8 0xFF#8 0xFFFFFFFF#32 := by decide

/-- A word whose only operand is A, under the mask of its format. -/
theorem assemble_mask_a (op a : Byte) :
    assemble op a 0#8 0#8 0#32 &&& 0xFF00FFFFFFFFFFFF#64 = assemble (op &&& 0xFF#8) 0#8 0#8 0#8 0#32 := by
  rw [mask_a, assemble_and]; simp

/-- The match word is the opcode byte alone. -/
theorem assemble_byte (o : Opcode) : assemble (o.byte &&& 0xFF#8) 0#8 0#8 0#8 0#32 = o.matchWord := by
  cases o <;> decide

theorem Spelling.init : Statement .init := by unfold Spelling.Statement; decide

theorem Spelling.setnum (v : Value) (b : Byte) : Statement (.setnum v b) := by
  have h : 0xFFFF00FF00000000#64 = assemble 0xFF#8 0xFF#8 0x00#8 0xFF#8 0x00000000#32 := by decide
  change assemble (Opcode.byte .setnum) 0#8 b 0#8 v &&& 0xFFFF00FF00000000#64 = Opcode.matchWord .setnum
  rw [h, assemble_and, ← assemble_byte]; simp

theorem Spelling.setdp (a : Byte) : Statement (.setdp a) := (assemble_mask_a _ a).trans (assemble_byte _)

theorem Spelling.showPos (a : Byte) : Statement (.showPos a) := (assemble_mask_a _ a).trans (assemble_byte _)

theorem Spelling.tick : Statement .tick := by unfold Spelling.Statement; decide

theorem Spelling.digen (a : Byte) : Statement (.digen a) := (assemble_mask_a _ a).trans (assemble_byte _)

theorem Spelling.digdis (a : Byte) : Statement (.digdis a) := (assemble_mask_a _ a).trans (assemble_byte _)

theorem Spelling.segen (a : Byte) : Statement (.segen a) := (assemble_mask_a _ a).trans (assemble_byte _)

theorem Spelling.segdis (a : Byte) : Statement (.segdis a) := (assemble_mask_a _ a).trans (assemble_byte _)

theorem Spelling.digdisall : Statement .digdisall := by unfold Spelling.Statement; decide

theorem Spelling.segdisall : Statement .segdisall := by unfold Spelling.Statement; decide

theorem Spelling.apply (a : Byte) : Statement (.apply a) := (assemble_mask_a _ a).trans (assemble_byte _)

theorem Spelling.encapply (a : Byte) : Statement (.encapply a) := (assemble_mask_a _ a).trans (assemble_byte _)

theorem Spelling.enc (a : Byte) : Statement (.enc a) := (assemble_mask_a _ a).trans (assemble_byte _)

theorem Spelling.pinhi (a : Byte) : Statement (.pinhi a) := (assemble_mask_a _ a).trans (assemble_byte _)

theorem Spelling.pinlo (a : Byte) : Statement (.pinlo a) := (assemble_mask_a _ a).trans (assemble_byte _)

theorem Spelling.pintgl (a : Byte) : Statement (.pintgl a) := (assemble_mask_a _ a).trans (assemble_byte _)

end Sys2Proof.Laws
end

