-- ==== Sys2Proof/Tests/Slice0.lean ====
section
/-! SUPPORT. Tests on words and states taken from spec/: the worked encodings of R82, the examples of the command rules and the
vectors V1 to V99 and programs of 95_test_vectors.md; and a witness for the hypotheses of every obligation that has some. -/

namespace Sys2Proof.Tests

open Sys2Proof Sys2Proof.Machine

/-! ## Helpers -/

/-- The next state of an answer. -/
def nextOf : Result → Option State
  | .next s => some s
  | .fault _ => none
  | .refused _ => none

/-- The state after a list of commands from reset. -/
def after (is : List Instr) : Option State := nextOf (runCommands is State.reset)

/-- The four buffers. -/
def bufsOf (s : State) : List Byte := [s.buf.d1, s.buf.d2, s.buf.d3, s.buf.d4]

/-- The trace with lines by number, as the vectors write it. -/
def traceOf (s : State) : List (Nat × Level) := s.trace.map fun e => (e.line.number, e.level)

/-- The latches in line order. -/
def latchesOf (s : State) : List Level := Line.all.map fun l => readLatch l s

/-- The state after INIT alone, from which most vectors start. -/
def fresh : State := createShared State.reset

/-- A state with a word presented and the trigger as given around the coming step. -/
def presenting (w : Word) (before during : Bool) (s : State) : State :=
  { s with commands := [w], firings := [{ before := before, during := during }] }

/-! ## WellFormed refuses an operand outside the range of its format (R75) -/

theorem test_wf_base_below : Instr.wf (.setnum 5#32 1#8) = false := by decide
theorem test_wf_base_above : Instr.wf (.setnum 5#32 17#8) = false := by decide
theorem test_wf_base_ends : Instr.wf (.setnum 5#32 2#8) = true ∧ Instr.wf (.setnum 5#32 16#8) = true := by decide
theorem test_wf_encapply_above : Instr.wf (.encapply 16#8) = false ∧ Instr.wf (.encapply 15#8) = true := by decide
theorem test_wf_enc_above : Instr.wf (.enc 16#8) = false ∧ Instr.wf (.enc 15#8) = true := by decide
theorem test_wf_pinhi_above : Instr.wf (.pinhi 12#8) = false ∧ Instr.wf (.pinhi 11#8) = true := by decide
theorem test_wf_pinlo_above : Instr.wf (.pinlo 12#8) = false ∧ Instr.wf (.pinlo 11#8) = true := by decide
theorem test_wf_pintgl_above : Instr.wf (.pintgl 12#8) = false ∧ Instr.wf (.pintgl 11#8) = true := by decide

/-! ## Decoding: words written out from R71 and R76, one at least for every command -/

/-- V1, R82 -/
theorem test_decode_init : decode 0x0100000000000000#64 = .instr .init := by decide
/-- V3, R82 -/
theorem test_decode_setnum :
    decode 0x02000A000000002A#64 = .instr (.setnum 42#32 10#8)
      ∧ decode 0x02000A00FFFFFFFF#64 = .instr (.setnum 0xFFFFFFFF#32 10#8) := by decide
/-- V6 -/
theorem test_decode_setdp : decode 0x0301000000000000#64 = .instr (.setdp 1#8) := by decide
/-- V7: an alias of D2 -/
theorem test_decode_show :
    decode 0x0409000000000000#64 = .instr (.showPos 9#8) ∧ positionOperand 9#8 = .d2 := by decide
/-- R82 -/
theorem test_decode_tick : decode 0x0500000000000000#64 = .instr .tick := by decide
/-- R124 -/
theorem test_decode_digen :
    decode 0x1002000000000000#64 = .instr (.digen 2#8) ∧ positionOperand 2#8 = .d3 := by decide
/-- V81 -/
theorem test_decode_digdis :
    decode 0x1104000000000000#64 = .instr (.digdis 4#8) ∧ positionOperand 4#8 = .d1 := by decide
/-- V8: an alias of A -/
theorem test_decode_segen :
    decode 0x1208000000000000#64 = .instr (.segen 8#8) ∧ segmentOperand 8#8 = .a := by decide
/-- V9 -/
theorem test_decode_segdis :
    decode 0x1307000000000000#64 = .instr (.segdis 7#8) ∧ segmentOperand 7#8 = .dp := by decide
/-- V14 -/
theorem test_decode_digdisall : decode 0x1400000000000000#64 = .instr .digdisall := by decide
/-- V14 -/
theorem test_decode_segdisall : decode 0x1500000000000000#64 = .instr .segdisall := by decide
/-- V10 -/
theorem test_decode_apply : decode 0x16FF000000000000#64 = .instr (.apply 0xFF#8) := by decide
/-- V11 -/
theorem test_decode_encapply : decode 0x1707000000000000#64 = .instr (.encapply 7#8) := by decide
/-- V39 -/
theorem test_decode_enc : decode 0x200A000000000000#64 = .instr (.enc 10#8) := by decide
/-- V13 -/
theorem test_decode_pinhi :
    decode 0x3008000000000000#64 = .instr (.pinhi 8#8) ∧ lineOperand 8#8 = some (.dig .d1) := by decide
/-- V12 -/
theorem test_decode_pinlo :
    decode 0x3106000000000000#64 = .instr (.pinlo 6#8) ∧ lineOperand 6#8 = some (.seg .g) := by decide
/-- R82 -/
theorem test_decode_pintgl :
    decode 0x320B000000000000#64 = .instr (.pintgl 11#8) ∧ lineOperand 11#8 = some (.dig .d4) := by decide

/-- V20, V21, V22 -/
theorem test_reject_opcode :
    decode 0x0000000000000000#64 = .reject .illegalOpcode ∧ decode 0x0600000000000000#64 = .reject .illegalOpcode
      ∧ decode 0xFF00000000000000#64 = .reject .illegalOpcode := by decide
/-- V23, V24, V25, V26, and V31, where the earlier of two failing checks wins -/
theorem test_reject_reserved :
    decode 0x0101000000000000#64 = .reject .reservedNonzero ∧ decode 0x02010A0000000005#64 = .reject .reservedNonzero
      ∧ decode 0x02000A0100000005#64 = .reject .reservedNonzero
      ∧ decode 0x0400000000000001#64 = .reject .reservedNonzero
      ∧ decode 0x2010010000000000#64 = .reject .reservedNonzero := by decide
/-- V27, V28, V29 -/
theorem test_reject_base :
    decode 0x0200000000000005#64 = .reject .baseRange ∧ decode 0x0200010000000005#64 = .reject .baseRange
      ∧ decode 0x0200110000000005#64 = .reject .baseRange := by decide
/-- V30, V89, V32, V33, V99 -/
theorem test_reject_digit_and_line :
    decode 0x2010000000000000#64 = .reject .digitRange ∧ decode 0x1710000000000000#64 = .reject .digitRange
      ∧ decode 0x300C000000000000#64 = .reject .lineRange ∧ decode 0x30FF000000000000#64 = .reject .lineRange
      ∧ decode 0x310C000000000000#64 = .reject .lineRange := by decide

/-- The host's two functions on the word of ENC 0xA, and a row it cannot decode with every operand bit 0: SETNUM of base 0 (V27). -/
theorem test_table_word :
    decodeTableWord 64 0x200A000000000000 = some (.enc 10#8) ∧ decodeTableWord 64 0x0200000000000000 = none := by decide

/-! ## The commands, one step each -/

/-- R150: from reset, INIT creates the state. -/
theorem test_init :
    (after [.init]).map (fun s => (s.present, bufsOf s, s.ptr, s.trace)) = some (true, [0#8, 0#8, 0#8, 0#8], .d1, []) := by
  decide
/-- V34: the second INIT -/
theorem test_init_twice :
    (after [.init, .setdp 0#8, .init]).map (fun s => (s.fault, s.present, bufsOf s))
      = some (some .reinit, true, [0x80#8, 0#8, 0#8, 0#8]) := by decide
/-- V51: "0042" -/
theorem test_setnum : (nextOf (exec (.setnum 42#32 10#8) fresh)).map bufsOf = some [0x3F#8, 0x3F#8, 0x66#8, 0x5B#8] := by decide
/-- V55 and V65: truncation, in base 10 and in base 3 -/
theorem test_setnum_truncates :
    (nextOf (exec (.setnum 4294967295#32 10#8) fresh)).map bufsOf = some [0x07#8, 0x5B#8, 0x6F#8, 0x6D#8]
      ∧ (nextOf (exec (.setnum 100#32 3#8) fresh)).map bufsOf = some [0x3F#8, 0x5B#8, 0x3F#8, 0x06#8] := by decide
/-- V69 -/
theorem test_setdp :
    (after [.init, .setnum 42#32 10#8, .setdp 1#8]).map bufsOf = some [0x3F#8, 0xBF#8, 0x66#8, 0x5B#8] := by decide
/-- V71 and V73: an alias on a blank buffer, and while absent -/
theorem test_setdp_alias :
    (nextOf (exec (.setdp 5#8) fresh)).map bufsOf = some [0#8, 0x80#8, 0#8, 0#8]
      ∧ nextOf (exec (.setdp 0#8) State.reset) = some State.reset := by decide
/-- V40: the thirteen writes of SHOW, PTR untouched -/
theorem test_show :
    (after [.init, .setnum 2#32 10#8, .showPos 3#8]).map (fun s => (traceOf s, s.ptr))
      = some ([(8, .low), (9, .low), (10, .low), (11, .low), (0, .low), (1, .low), (2, .released), (3, .low), (4, .low),
          (5, .released), (6, .low), (7, .released), (11, .high)], .d1) := by decide
/-- V41: TICK advances, then shows D2 -/
theorem test_tick :
    (after [.init, .setnum 42#32 10#8, .tick]).map (fun s => (traceOf s, s.ptr))
      = some ([(8, .low), (9, .low), (10, .low), (11, .low), (0, .low), (1, .low), (2, .low), (3, .low), (4, .low), (5, .low),
          (6, .released), (7, .released), (9, .high)], .d2) := by decide
/-- V45: TICK while absent -/
theorem test_tick_absent : nextOf (exec .tick State.reset) = some State.reset := by decide
/-- V80 -/
theorem test_digen : (nextOf (exec (.digen 2#8) fresh)).map traceOf = some [(10, .high)] := by decide
/-- V81 -/
theorem test_digdis : (nextOf (exec (.digdis 4#8) fresh)).map traceOf = some [(8, .low)] := by decide
/-- V82 -/
theorem test_segen : (nextOf (exec (.segen 6#8) fresh)).map traceOf = some [(6, .low)] := by decide
/-- V83 -/
theorem test_segdis : (nextOf (exec (.segdis 7#8) fresh)).map traceOf = some [(7, .released)] := by decide
/-- V84 -/
theorem test_digdisall :
    (nextOf (exec .digdisall fresh)).map traceOf = some [(8, .low), (9, .low), (10, .low), (11, .low)] := by decide
/-- V85 -/
theorem test_segdisall :
    (nextOf (exec .segdisall fresh)).map latchesOf
      = some [.released, .released, .released, .released, .released, .released, .released, .released,
          .unspec, .unspec, .unspec, .unspec] := by decide
/-- R130: APPLY 0x3F -/
theorem test_apply :
    (nextOf (exec (.apply 0x3F#8) fresh)).map traceOf
      = some [(0, .low), (1, .low), (2, .low), (3, .low), (4, .low), (5, .low), (6, .released), (7, .released)] := by decide
/-- V90: APPLY while absent -/
theorem test_apply_absent : nextOf (exec (.apply 0xFF#8) State.reset) = some State.reset := by decide
/-- V88 -/
theorem test_encapply :
    (nextOf (exec (.encapply 4#8) fresh)).map traceOf
      = some [(0, .released), (1, .low), (2, .low), (3, .released), (4, .released), (5, .low), (6, .low), (7, .released)] := by
  decide
/-- V89 -/
theorem test_encapply_range : (nextOf (exec (.encapply 16#8) fresh)).map faultRegister = some 4#8 := by decide
/-- V36 and R102: ENC works while absent -/
theorem test_enc : (after [.enc 0#8, .enc 10#8]).map (fun s => (s.responses, s.present)) = some ([0x3F#8, 0x77#8], false) := by
  decide
/-- V91: a segment line is released, not driven high -/
theorem test_pinhi_segment : (nextOf (exec (.pinhi 3#8) fresh)).map traceOf = some [(3, .released)] := by decide
/-- V92 -/
theorem test_pinhi_digit : (nextOf (exec (.pinhi 11#8) fresh)).map traceOf = some [(11, .high)] := by decide
/-- V94, and V99 -/
theorem test_pinlo :
    (nextOf (exec (.pinlo 3#8) fresh)).map traceOf = some [(3, .low)]
      ∧ (nextOf (exec (.pinlo 12#8) fresh)).map (fun s => (faultRegister s, traceOf s)) = some (5#8, []) := by decide
/-- V93: a digit line toggles between its two levels -/
theorem test_pintgl_digit :
    (after [.init, .pinhi 11#8, .pintgl 11#8]).map traceOf = some [(11, .high), (11, .low)] := by decide
/-- V95 and V97: a segment line at a known level, and at an unknown one -/
theorem test_pintgl_segment :
    (after [.init, .pinlo 3#8, .pintgl 3#8]).map traceOf = some [(3, .low), (3, .released)]
      ∧ (nextOf (exec (.pintgl 3#8) fresh)).map traceOf = some [(3, .unspec)] := by decide

/-! ## The step -/

/-- The word placed by withFetchWord is the one the next step runs, as the first after reset. -/
theorem test_fetch_word :
    (nextOf (step (State.reset.withFetchWord 64 0x0100000000000000))).map (fun s => (s.present, s.position, s.commands))
      = some (true, 1, []) := by decide
/-- V29 and R232, R233: the base check is made while absent, and the next step names the word and its position. -/
theorem test_fault_then_halt :
    (nextOf (step (presenting 0x0200110000000005#64 false false State.reset))).map (fun s => (s.fault, s.present, step s))
      = some (some .baseRange, false, .fault (.halted .baseRange (some { word := 0x0200110000000005#64, position := 0 }))) := by
  rfl
/-- R243: a firing during a command is held, and one that arrives before it runs first. -/
theorem test_firing :
    (nextOf (step (presenting 0x0301000000000000#64 false true fresh))).map (fun s => (s.tickPending, s.ptr, s.position))
        = some (true, .d1, 1)
      ∧ (nextOf (step (presenting 0x0301000000000000#64 true false fresh))).map (fun s => (s.tickPending, s.ptr, s.position))
        = some (false, .d2, 0) := by decide

/-! ## Witnesses: states and operands that meet the hypotheses of each obligation, clause by clause -/

/-- After INIT, SETDP D1 and DIGEN D1: a decimal point set, D1 High, everything else as INIT leaves it. -/
def litD1 : State := drive (.dig .d1) .high (writeBuf .d1 0x80#8 fresh)

/-- AssemblerReadsNames -/
theorem witness_names :
    Opcode.format .setdp = .p ∧ Opcode.format .segdis = .g ∧ Opcode.format .pintgl = .l := by decide

/-- DecodeEncodeRoundTrip, at the ends of each range -/
theorem witness_encoded :
    Instr.wf (.setnum 0xFFFFFFFF#32 2#8) = true ∧ Instr.wf (.setnum 0#32 16#8) = true ∧ Instr.wf (.enc 15#8) = true
      ∧ Instr.wf (.encapply 0#8) = true ∧ Instr.wf (.pintgl 11#8) = true ∧ Instr.wf (.showPos 255#8) = true := by decide

/-- EncodeDecodeRoundTrip -/
theorem witness_decoded : decode 0x02001000FFFFFFFF#64 = .instr (.setnum 0xFFFFFFFF#32 16#8) := by decide

/-- OpcodeMapIsUnambiguous: a word on its row, operand at the top -/
theorem witness_spelled : Opcode.spells .pinhi 0x30FF000000000000#64 = true := by decide

/-- DecodeOrderAndFaults: an unassigned op; an assigned one with a reserved field set; each range just outside and at its end -/
theorem witness_decode_order :
    (∀ o ∈ Opcode.all, opField 0x0600000000000000#64 ≠ o.byte)
      ∧ (opField 0x2010010000000000#64 = Opcode.byte .enc ∧ Opcode.spells .enc 0x2010010000000000#64 = false)
      ∧ (Opcode.spells .enc 0x2010000000000000#64 = true ∧ 15 < (aField 0x2010000000000000#64).toNat)
      ∧ (Opcode.spells .pinlo 0x310C000000000000#64 = true ∧ 11 < (aField 0x310C000000000000#64).toNat)
      ∧ (Opcode.spells .setnum 0x0200010000000005#64 = true ∧ (bField 0x0200010000000005#64).toNat < 2)
      ∧ (Opcode.spells .setnum 0x0200110000000005#64 = true ∧ 16 < (bField 0x0200110000000005#64).toNat)
      ∧ (Opcode.spells .enc 0x200F000000000000#64 = true ∧ (aField 0x200F000000000000#64).toNat = 15)
      ∧ (Opcode.spells .pinlo 0x310B000000000000#64 = true ∧ (aField 0x310B000000000000#64).toNat = 11)
      ∧ (Opcode.spells .setnum 0x0200020000000005#64 = true ∧ (bField 0x0200020000000005#64).toNat = 2)
      ∧ (Opcode.spells .setnum 0x0200100000000005#64 = true ∧ (bField 0x0200100000000005#64).toNat = 16) := by decide

/-- EncRule, EncapplyRule, RomContents and DriverIsPinSequence: a digit value at the end of the range and just above it, present and absent -/
theorem witness_digit_value :
    (15#8).toNat ≤ 15 ∧ 15 < (16#8).toNat ∧ fresh.present = true ∧ State.reset.present = false := by decide

/-- InitRule, SetdpRule, SingleLineDriverRules, DigdisallRule, SegdisallRule, ApplyRule, TickRule and LightingIsKnownAfterATick: a
present state and an absent one -/
theorem witness_present_and_absent : fresh.present = true ∧ State.reset.present = false := by decide

/-- SetnumRule: the bases at and outside both ends -/
theorem witness_base :
    (2 ≤ (2#8).toNat ∧ (2#8).toNat ≤ 16) ∧ (2 ≤ (16#8).toNat ∧ (16#8).toNat ≤ 16) ∧ (1#8).toNat < 2 ∧ 16 < (17#8).toNat
      ∧ fresh.present = true ∧ State.reset.present = false := by decide

/-- SetnumArithmeticLaw: the largest value that fits in base 16, and the first that does not -/
theorem witness_arithmetic :
    2 ≤ (16#8).toNat ∧ (16#8).toNat ≤ 16 ∧ fresh.present = true ∧ (0xFFFF#32).toNat < (16#8).toNat ^ 4
      ∧ ¬ (0x10000#32).toNat < (16#8).toNat ^ 4 := by decide

/-- BufferCommandsTouchNoLine: the three buffer commands, and a command that is neither SHOW nor TICK -/
theorem witness_buffer_commands :
    (Instr.setdp 1#8 = .init ∨ (∃ v b, Instr.setdp 1#8 = .setnum v b) ∨ (∃ a, Instr.setdp 1#8 = .setdp a))
      ∧ Instr.setdp 1#8 ≠ .init ∧ Instr.apply 1#8 ≠ .tick ∧ ∀ a, Instr.apply 1#8 ≠ .showPos a :=
  ⟨.inr (.inr ⟨1#8, rfl⟩), by decide, by decide, nofun⟩

/-- DecimalPointLife: a legal base and a present state, and a command other than SETNUM where a decimal point is set -/
theorem witness_decimal_point :
    (2 ≤ (16#8).toNat ∧ (16#8).toNat ≤ 16 ∧ fresh.present = true)
      ∧ litD1.present = true ∧ (readBuf .d1 litD1).getLsbD 7 = true ∧ ∀ v b, Instr.showPos 0#8 ≠ .setnum v b :=
  ⟨by decide, by decide, by decide, nofun⟩

/-- PinSetRules: the first and last line of each kind, the last line while absent, and the first number above them -/
theorem witness_pin_set :
    Line.number (.seg .a) = (0#8).toNat ∧ Line.number (.seg .dp) = (7#8).toNat ∧ Line.number (.dig .d1) = (8#8).toNat
      ∧ Line.number (.dig .d4) = (11#8).toNat ∧ fresh.present = true ∧ (11#8).toNat ≤ 11 ∧ State.reset.present = false
      ∧ 11 < (12#8).toNat := by decide

/-- PinToggleRule: the last segment line and the first digit line, a line at a level it can hold, absent, above the lines, and a
command that is no toggle -/
theorem witness_pin_toggle :
    (Segment.index .dp = (7#8).toNat ∧ fresh.present = true) ∧ (8 + Position.index .d1 = (8#8).toNat ∧ litD1.present = true)
      ∧ (Line.number (.dig .d1) = (8#8).toNat ∧ LegalLevel (.dig .d1) (readLatch (.dig .d1) litD1))
      ∧ ((11#8).toNat ≤ 11 ∧ State.reset.present = false) ∧ 11 < (12#8).toNat ∧ ∀ a, Instr.tick ≠ .pintgl a :=
  ⟨by decide, by decide, ⟨by decide, by change Level.high ≠ .released; decide⟩, by decide, by decide, nofun⟩

/-- LinesFollowTheTrace -/
theorem witness_not_init : Instr.pintgl 3#8 ≠ .init := by decide

/-- ShowRule: an operand above 3 -/
theorem witness_show :
    Position.index .d2 = (9#8).toNat % 4 ∧ fresh.present = true ∧ State.reset.present = false := by decide

/-- ShownDigitAlone and ShowIsGlitchFree: a SHOW and a TICK -/
theorem witness_shown :
    litD1.present = true
      ∧ ((∃ a, Instr.showPos 3#8 = .showPos a ∧ Position.index .d4 = a.toNat % 4) ∨ (Instr.showPos 3#8 = .tick ∧ Position.d4 = litD1.ptr.next))
      ∧ ((∃ a, Instr.tick = .showPos a ∧ Position.index .d2 = a.toNat % 4) ∨ (Instr.tick = .tick ∧ Position.d2 = litD1.ptr.next)) :=
  ⟨by decide, .inl ⟨3#8, rfl, by decide⟩, .inr ⟨rfl, by decide⟩⟩

/-- After INIT, SHOW D4: every line known, D4 High. -/
def shownD4 : State := driveAll (showWrites .d4 0x00#8) fresh

/-- TicksKeepOneDigitHigh: every command it admits, a TICK among them, from a state with one digit High, with every digit line known, and
from one whose digit lines are UNSPEC -/
theorem witness_one_digit :
    (∀ i ∈ [Instr.tick, .setnum 42#32 10#8, .setdp 1#8, .enc 15#8, .tick],
      i = .tick ∨ (∃ v b, i = .setnum v b) ∨ (∃ a, i = .setdp a) ∨ (∃ a, i = .enc a))
      ∧ (AtMostOneDigitHigh (fun l => readLatch l shownD4) ∧ DigitsKnown shownD4 ∧ shownD4.present = true)
      ∧ AtMostOneDigitHigh (fun l => readLatch l fresh) := by
  refine ⟨by simp, ⟨fun p q hp hq => ?_, fun p => by cases p <;> decide, by decide⟩, fun p q hp _ => ?_⟩
  · cases p <;> cases q <;> first | rfl | exact absurd hp (by decide) | exact absurd hq (by decide)
  · cases p <;> exact absurd hp (by decide)

/-- TicksRotateTheDisplay: PTR at D1 and a tick; commands of every kind between two TICKs; an absent state -/
theorem witness_rotation :
    fresh.present = true ∧ fresh.ptr = .d1 ∧ 0 < 1 ∧ State.reset.present = false
      ∧ ∀ i ∈ [Instr.tick, .setnum 42#32 16#8, .showPos 3#8, .pintgl 11#8, .tick], i.wf = true ∧ i ≠ .init := by decide

/-- EveryDigitShownWithinFourTicks -/
theorem witness_four_ticks :
    let s : State := { fresh with firings := ticksThen 4 [] }
    Running s ∧ s.present = true ∧ s.tickPending = false ∧ s.firings = ticksThen 4 [] :=
  ⟨rfl, rfl, rfl, rfl⟩

/-- PtrIsTheTicksAlone: present, absent, a command other than TICK, and INIT where it does not create -/
theorem witness_ptr :
    fresh.present = true ∧ State.reset.present = false ∧ Instr.init ≠ .tick
      ∧ ¬ (Instr.init = .init ∧ fresh.present = false) := by decide

/-- TickOrderVariants -/
theorem witness_tick_order : fresh.ptr = .d1 := rfl

/-- AbsentStatePolicy: a no-op, ENC and INIT -/
theorem witness_absent :
    Instr.wf (.setnum 5#32 16#8) = true ∧ Instr.wf (.enc 15#8) = true ∧ Instr.wf .init = true
      ∧ State.reset.present = false ∧ Instr.setnum 5#32 16#8 ≠ .init ∧ ∀ a, Instr.setnum 5#32 16#8 ≠ .enc a :=
  ⟨by decide, by decide, by decide, by decide, by decide, nofun⟩

/-- OnlyReinitFaultsAfterDecode: INIT while absent, and a command at the end of its range while present -/
theorem witness_no_fault :
    (Instr.wf .init = true ∧ ¬ (Instr.init = .init ∧ State.reset.present = true))
      ∧ (Instr.wf (.pintgl 11#8) = true ∧ ¬ (Instr.pintgl 11#8 = .init ∧ fresh.present = true)) := by decide

/-- FaultCodesAndCauses: a running state, present and absent, and for each code a word that has its cause -/
theorem witness_fault_codes :
    Running fresh ∧ Running State.reset ∧ (∀ o ∈ Opcode.all, opField 0#64 ≠ o.byte)
      ∧ (opField 0x0101000000000000#64 = Opcode.byte .init ∧ Opcode.spells .init 0x0101000000000000#64 = false)
      ∧ Opcode.spells .setnum 0x0200110000000005#64 = true ∧ Opcode.spells .encapply 0x1710000000000000#64 = true
      ∧ Opcode.spells .pintgl 0x320C000000000000#64 = true ∧ Opcode.spells .init 0x0100000000000000#64 = true :=
  ⟨rfl, rfl, by decide, by decide, by decide, by decide, by decide, by decide⟩

/-- FaultIsPrecise, FaultHaltsBeforePendingTick and HaltIsForEver: a rejected word and a second INIT, a firing during each; and a halted
state, and a step that goes on -/
theorem witness_faulting :
    let s := presenting 0x0200110000000005#64 false true fresh
    let u := presenting 0x0100000000000000#64 false true fresh
    (Running s ∧ tickDue s = false ∧ s.commands = [0x0200110000000005#64]
        ∧ decode 0x0200110000000005#64 = .reject .baseRange)
      ∧ (Running u ∧ tickDue u = false ∧ u.commands = [0x0100000000000000#64]
        ∧ decode 0x0100000000000000#64 = .instr .init ∧ u.present = true)
      ∧ (raiseFault .lineRange fresh).fault = some .lineRange ∧ ∃ t, step State.reset = .next t :=
  ⟨⟨rfl, by decide, rfl, by decide⟩, ⟨rfl, by decide, rfl, by decide, rfl⟩, rfl, ⟨_, rfl⟩⟩

/-- StepRunsTheDecodedCommand: a presented word, and a table word -/
theorem witness_step :
    let s := presenting 0x0500000000000000#64 false true fresh
    (Running s ∧ tickDue s = false ∧ s.commands = [0x0500000000000000#64] ∧ decode 0x0500000000000000#64 = .instr .tick)
      ∧ 0x320B000000000000 < 2 ^ 64 ∧ decodeTableWord 64 0x320B000000000000 = some (.pintgl 11#8) :=
  ⟨⟨rfl, by decide, rfl, by decide⟩, by decide, by decide⟩

/-- DueTickRunsFirst: a firing that arrives, and one that is held -/
theorem witness_due_tick :
    let s := presenting 0x0100000000000000#64 true true fresh
    (Running s ∧ tickDue s = true) ∧ Running { fresh with tickPending := true } ∧ tickDue { fresh with tickPending := true } = true :=
  ⟨⟨rfl, by decide⟩, rfl, by decide⟩

/-- FiringDuringCommandIsHeld -/
theorem witness_held_firing :
    let s := presenting 0x0301000000000000#64 false true fresh
    Running s ∧ tickDue s = false ∧ s.commands = [0x0301000000000000#64] ∧ (nextSlot s).during = true
      ∧ decode 0x0301000000000000#64 = .instr (.setdp 1#8) ∧ ¬ (Instr.setdp 1#8 = .init ∧ s.present = true) ∧ s.present = true :=
  ⟨rfl, by decide, rfl, rfl, by decide, by decide, rfl⟩

/-- ForegroundTickIsTriggerTick and BlockWaitsForAWord -/
theorem witness_waiting :
    Running fresh ∧ fresh.ctx = .fg ∧ fresh.tickPending = false ∧ tickDue fresh = false ∧ fresh.commands = [] ∧ fresh.firings = [] :=
  ⟨rfl, rfl, rfl, by decide, rfl, rfl⟩

/-- ResponsesComeFromEncAlone -/
theorem witness_not_enc : ∀ a, Instr.tick ≠ .enc a := nofun

/-- StepKeepsInvariant: a present state with a digit High, a TICK presented, and its step -/
theorem witness_invariant :
    Machine.Inv (presenting 0x0500000000000000#64 false true litD1)
      ∧ ∃ t, step (presenting 0x0500000000000000#64 false true litD1) = .next t := by
  refine ⟨?_, _, rfl⟩
  refine
    { buffers := fun _ p => ?_, latches := fun l => ?_, events := fun e he => ?_, absent := fun h => ?_,
      responses := fun m hm => ?_, context := rfl, record := rfl }
  · cases p <;> first | exact .inl rfl | exact .inr (.inl rfl)
  · rcases l with x | x <;> cases x <;> rfl
  · have : e = ⟨.dig .d1, .high⟩ := List.mem_singleton.mp he
    subst this; change Level.high ≠ .released; decide
  · exact absurd h (by decide)
  · exact absurd hm (by change m ∉ []; simp)

/-- BufferInvariant -/
theorem witness_buffers : litD1.present = true ∧ ∀ p, LegalBuffer (readBuf p litD1) :=
  ⟨rfl, fun p => by cases p <;> first | exact .inl rfl | exact .inr (.inl rfl)⟩

/-- HazardsAreNotRefused: D1 High, and DIGEN of D2 -/
theorem witness_hazards :
    litD1.present = true ∧ readLatch (.dig .d1) litD1 = .high ∧ Position.index .d1 ≠ (1#8).toNat % 4 := by decide

/-- AssemblerRangesNumbers: an opcode of each format, and each range at its end and just above it, in decimal and in hexadecimal -/
theorem witness_numbers :
    (Opcode.format .tick = .n ∧ Opcode.format .setnum = .s ∧ Opcode.format .showPos = .p ∧ Opcode.format .segen = .g
        ∧ Opcode.format .apply = .m ∧ Opcode.format .enc = .d ∧ Opcode.format .pinlo = .l)
      ∧ (readNumber "255".toList = some 255 ∧ readNumber "0x100".toList = some 256)
      ∧ (readNumber "15".toList = some 15 ∧ readNumber "0x10".toList = some 16)
      ∧ (readNumber "0xB".toList = some 11 ∧ readNumber "12".toList = some 12)
      ∧ (readNumber "4294967295".toList = some 4294967295 ∧ readNumber "0x100000000".toList = some 4294967296) := by decide

end Sys2Proof.Tests
end

section
/-! The statements about the state: what each command does to PRESENT, PTR, CTX, the lines and the responses, which of
these it can see, and what stands after reset. -/

namespace Sys2Proof.Machine

/-! ## INIT of an absent state, TICK of a present one -/

theorem exec_init_absent {s : State} (h : s.present = false) : exec .init s = .next (createShared s) := by
  simp [exec, execInit, h]

theorem exec_tick_present {s : State} (h : s.present = true) :
    exec .tick s = .next (driveAll (showWrites s.ptr.next (readBuf s.ptr.next s)) (advance s)) := by
  simp only [exec, execTick, whenPresent_present _ h]; rfl

/-! ## What an effect leaves unchanged, and what it writes -/

@[simp] theorem driveAll_ctx (es : List LineEvent) (s : State) : (driveAll es s).ctx = s.ctx := by
  obtain ⟨-, hctx, -⟩ := driveAll_sameInputs es s
  exact hctx

/-- R21: INIT alone sets PRESENT, and nothing clears it. -/
theorem effect_present {i : Instr} {s t : State} (h : Effect i s t) :
    t.present = (s.present || decide (i = .init)) := by
  cases h with
  | noop absent notInit _ => simp [absent, notInit]
  | create _ => simp
  | fault c why =>
    rcases why with hwf | ⟨-, present⟩
    · have notInit : i ≠ .init := by rintro rfl; cases hwf
      simp [notInit]
    · simp [present]
  | number present _ => simp [present]
  | point present => simp [present]
  | lines present => simp [present]
  | tick present => simp [present]
  | encode v _ => simp

theorem effect_ctx {i : Instr} {s t : State} (h : Effect i s t) : t.ctx = s.ctx := by
  cases h <;> simp

/-- R24: what is neither a TICK nor an INIT of an absent state does not write PTR. -/
theorem effect_ptr {i : Instr} {s t : State} (h : Effect i s t) (notTick : i ≠ .tick)
    (notCreate : ¬ (i = .init ∧ s.present = false)) : t.ptr = s.ptr := by
  cases h with
  | create absent => exact absurd ⟨rfl, absent⟩ notCreate
  | tick _ => exact absurd rfl notTick
  | _ => simp

/-- R37: ENC alone responds. -/
theorem effect_responses {i : Instr} {s t : State} (h : Effect i s t) (notEnc : ∀ a, i ≠ .enc a) :
    t.responses = s.responses := by
  cases h with
  | encode v _ => exact absurd rfl (notEnc _)
  | _ => simp

theorem legalWrites_nil (i : Instr) : LegalWrites i [] := by simp [LegalWrites]

/-- R31, R57: what an effect appends to the trace, and that the latches follow it but for INIT's. -/
theorem effect_writes {i : Instr} {s t : State} (h : Effect i s t) :
    ∃ es, t.trace = s.trace ++ es ∧ LegalWrites i es
      ∧ (i ≠ .init → ∀ l, readLatch l t = levelAfter l (readLatch l s) es) := by
  cases h with
  | lines _ legal => exact ⟨_, driveAll_trace _ _, legal, fun _ l => readLatch_driveAll _ l s⟩
  | tick _ =>
    exact ⟨_, driveAll_trace _ _, legalWrites_of_known (by simp) (showWrites_known _ _),
      fun _ l => by rw [readLatch_driveAll, readLatch_advance]⟩
  | create _ => exact ⟨[], by simp, legalWrites_nil _, fun notInit => absurd rfl notInit⟩
  | _ => exact ⟨[], by simp, legalWrites_nil _, by simp⟩

/-! ## Changes of the state that a command does not see -/

/-- A change of the state that no read sees and that every write but those of PTR and of INIT passes by: it touches
nothing that a command other than INIT and TICK works with. -/
structure Unread (u : State → State) : Prop where
  present : ∀ s, (u s).present = s.present
  readBuf : ∀ p s, readBuf p (u s) = readBuf p s
  readLatch : ∀ l s, readLatch l (u s) = readLatch l s
  writeBuf : ∀ p m s, writeBuf p m (u s) = u (writeBuf p m s)
  writeAllBufs : ∀ f s, writeAllBufs f (u s) = u (writeAllBufs f s)
  drive : ∀ l v s, drive l v (u s) = u (drive l v s)
  respond : ∀ m s, respond m (u s) = u (respond m s)
  raiseFault : ∀ c s, raiseFault c (u s) = u (raiseFault c s)

/-- An unread change that leaves PTR alone and that INIT does not undo. -/
structure Hidden (u : State → State) : Prop extends Unread u where
  ptr : ∀ s, (u s).ptr = s.ptr
  advance : ∀ s, advance (u s) = u (advance s)
  createShared : ∀ s, createShared (u s) = u (createShared s)

section Unread

variable {u : State → State} (hu : Unread u)
include hu

theorem Unread.driveAll (es : List LineEvent) (s : State) : driveAll es (u s) = u (driveAll es s) := by
  induction es generalizing s with
  | nil => rfl
  | cons e es ih => simp only [driveAll_cons, hu.drive, ih]

theorem Unread.showDigit (p : Position) (s : State) : showDigit p (u s) = u (showDigit p s) := by
  simp only [Machine.showDigit, hu.readBuf, hu.driveAll]

theorem Unread.whenPresent {f : State → State} {s : State} (hf : f (u s) = u (f s)) :
    whenPresent f (u s) = u (whenPresent f s) := by
  cases hp : s.present
  · rw [whenPresent_absent f hp, whenPresent_absent f ((hu.present s).trans hp)]
  · rw [whenPresent_present f hp, whenPresent_present f ((hu.present s).trans hp), hf]

theorem Unread.onLine {f : Line → State → State} (a : Byte) {s : State} (hf : ∀ l, f l (u s) = u (f l s)) :
    onLine a f (u s) = mapNext u (onLine a f s) := by
  unfold Machine.onLine
  cases lineOperand a with
  | none => exact congrArg _ (hu.raiseFault _ _)
  | some l => exact congrArg _ (hu.whenPresent (hf l))

/-- A command that is neither a TICK nor the creation of the shared state does not see an unread change. -/
theorem Unread.exec {i : Instr} {s : State} (notTick : i ≠ .tick) (notCreate : ¬ (i = .init ∧ s.present = false)) :
    exec i (u s) = mapNext u (exec i s) := by
  cases i with
  | init =>
    have hp : s.present = true := by simpa using notCreate
    simp [Machine.exec, execInit, hu.present, hp, hu.raiseFault, mapNext]
  | setnum v b =>
    simp only [Machine.exec, execSetnum]
    cases baseOperand b with
    | none => exact congrArg _ (hu.raiseFault _ _)
    | some base => exact congrArg _ (hu.whenPresent (hu.writeAllBufs _ _))
  | setdp a => exact congrArg _ (hu.whenPresent (by rw [hu.readBuf, hu.writeBuf]))
  | showPos a => exact congrArg _ (hu.whenPresent (hu.showDigit _ _))
  | tick => exact absurd rfl notTick
  | digen a => exact congrArg _ (hu.whenPresent (hu.drive _ _ _))
  | digdis a => exact congrArg _ (hu.whenPresent (hu.drive _ _ _))
  | segen a => exact congrArg _ (hu.whenPresent (hu.drive _ _ _))
  | segdis a => exact congrArg _ (hu.whenPresent (hu.drive _ _ _))
  | digdisall => exact congrArg _ (hu.whenPresent (hu.driveAll _ _))
  | segdisall => exact congrArg _ (hu.whenPresent (hu.driveAll _ _))
  | apply a => exact congrArg _ (hu.whenPresent (hu.driveAll _ _))
  | encapply a =>
    simp only [Machine.exec, execEncapply]
    cases digitOperand a with
    | none => exact congrArg _ (hu.raiseFault _ _)
    | some v => exact congrArg _ (hu.whenPresent (hu.driveAll _ _))
  | enc a =>
    simp only [Machine.exec, execEnc]
    cases digitOperand a with
    | none => exact congrArg _ (hu.raiseFault _ _)
    | some v => exact congrArg _ (hu.respond _ _)
  | pinhi a => exact hu.onLine a fun l => hu.drive _ _ _
  | pinlo a => exact hu.onLine a fun l => hu.drive _ _ _
  | pintgl a => exact hu.onLine a fun l => by rw [hu.readLatch, hu.drive]

end Unread

theorem Hidden.tickBody {u : State → State} (hu : Hidden u) (order : TickOrder) (s : State) :
    tickBody order (u s) = u (tickBody order s) := by
  cases order <;> simp only [Machine.tickBody, hu.advance, hu.ptr, hu.showDigit]

/-- No command sees a hidden change. -/
theorem Hidden.exec {u : State → State} (hu : Hidden u) (i : Instr) (s : State) :
    exec i (u s) = mapNext u (exec i s) := by
  by_cases notCreate : i = .init ∧ s.present = false
  · obtain ⟨rfl, absent⟩ := notCreate
    rw [exec_init_absent absent, exec_init_absent ((hu.present s).trans absent), hu.createShared]; rfl
  · by_cases notTick : i = .tick
    · subst notTick
      exact congrArg _ (hu.whenPresent (hu.tickBody _ _))
    · exact hu.toUnread.exec notTick notCreate

/-! ## The three changes: another PTR, another CTX, earlier responses -/

def withPtr (q : Position) (s : State) : State := { s with ptr := q }

def withCtx (x : Ctx) (s : State) : State := { s with ctx := x }

/-- The state as it is where `ms` was returned before all else. -/
def afterResponses (ms : List Byte) (s : State) : State := { s with responses := ms ++ s.responses }

theorem unread_withPtr (q : Position) : Unread (withPtr q) where
  present _ := rfl
  readBuf _ _ := rfl
  readLatch l _ := by cases l <;> rfl
  writeBuf _ _ _ := rfl
  writeAllBufs _ _ := rfl
  drive l _ _ := by cases l <;> rfl
  respond _ _ := rfl
  raiseFault _ _ := rfl

theorem hidden_withCtx (x : Ctx) : Hidden (withCtx x) where
  present _ := rfl
  readBuf _ _ := rfl
  readLatch l _ := by cases l <;> rfl
  writeBuf _ _ _ := rfl
  writeAllBufs _ _ := rfl
  drive l _ _ := by cases l <;> rfl
  respond _ _ := rfl
  raiseFault _ _ := rfl
  ptr _ := rfl
  advance _ := rfl
  createShared _ := rfl

theorem hidden_afterResponses (ms : List Byte) : Hidden (afterResponses ms) where
  present _ := rfl
  readBuf _ _ := rfl
  readLatch l _ := by cases l <;> rfl
  writeBuf _ _ _ := rfl
  writeAllBufs _ _ := rfl
  drive l _ _ := by cases l <;> rfl
  respond _ _ := by simp [Machine.respond, afterResponses]
  raiseFault _ _ := rfl
  ptr _ := rfl
  advance _ := rfl
  createShared _ := rfl

/-! ## Lighting -/

theorem lighting_eq_lit {p : Position} {sg : Segment} {s : State} :
    lighting p sg s = .lit ↔ readLatch (.dig p) s = .high ∧ readLatch (.seg sg) s = .low := by
  unfold lighting
  cases readLatch (.dig p) s <;> cases readLatch (.seg sg) s <;> decide

theorem lighting_eq_unknown {p : Position} {sg : Segment} {s : State} :
    lighting p sg s = .unknown ↔ readLatch (.dig p) s = .unspec ∨ readLatch (.seg sg) s = .unspec := by
  unfold lighting
  cases readLatch (.dig p) s <;> cases readLatch (.seg sg) s <;> decide

/-- Where both latches are known, what may be lit is what is lit. -/
theorem mayBeLit_of_known {p : Position} {sg : Segment} {s : State} (h : lighting p sg s ≠ .unknown) :
    mayBeLit p sg s = decide (lighting p sg s = .lit) := by
  rw [Ne, lighting_eq_unknown, not_or] at h
  obtain ⟨hdig, hseg⟩ := h
  simp [mayBeLit, lighting_eq_lit, hdig, hseg, Bool.beq_eq_decide_eq]

/-- R275: nothing is known of a segment before the first write. -/
theorem lighting_of_unspec {p : Position} {sg : Segment} {s : State} (hd : readLatch (.dig p) s = .unspec)
    (hs : readLatch (.seg sg) s = .unspec) : lighting p sg s = .unknown ∧ mayBeLit p sg s = true :=
  ⟨lighting_eq_unknown.2 (.inl hd), by simp [mayBeLit, hd, hs]⟩

theorem patternLevel_ne_unspec (m : Byte) (sg : Segment) : patternLevel m sg ≠ .unspec :=
  (segmentLevel_known sg _).2

/-- R185: SHOW's writes leave every segment of every digit known. -/
theorem lighting_showWrites_known (p q : Position) (sg : Segment) (m : Byte) (s : State) :
    lighting q sg (driveAll (showWrites p m) s) ≠ .unknown := by
  rw [Ne, lighting_eq_unknown, readLatch_driveAll, readLatch_driveAll, showWrites_dig, showWrites_seg, not_or]
  exact ⟨by split <;> decide, patternLevel_ne_unspec m sg⟩

/-! ## Reset -/

theorem readLatch_reset (l : Line) : readLatch l State.reset = .unspec := by
  rcases l with x | x <;> cases x <;> rfl

end Sys2Proof.Machine

open Sys2Proof Sys2Proof.Machine

/-- Settles O8, from what the conversions do to the index and what they invert. -/
theorem indexConversions : Obligations.IndexConversions :=
  ⟨fun i => ⟨Position.index_ofIndex i, Segment.index_ofIndex i⟩, Position.ofIndex_index, Segment.ofIndex_index,
    rfl, rfl, rfl, rfl, rfl, rfl, rfl, fun _ => ⟨rfl, rfl⟩⟩

/-- Settles O10. -/
theorem nextIsCyclic : Obligations.NextIsCyclic :=
  ⟨rfl, rfl, rfl, rfl, fun p => ⟨Position.index_next p, by cases p <;> rfl⟩⟩

/-- Settles O20, from the effects of a command. -/
theorem presentIsSetByInitAlone : Obligations.PresentIsSetByInitAlone := by
  refine ⟨rfl, fun i s => ?_⟩
  obtain ⟨t, hexec, heffect⟩ := exec_effect i s
  exact ⟨t, hexec, effect_present heffect⟩

/-- Settles O29, from the effects of a command. -/
theorem linesFollowTheTrace : Obligations.LinesFollowTheTrace := by
  intro i s
  obtain ⟨t, hexec, heffect⟩ := exec_effect i s
  obtain ⟨es, htrace, ⟨hlength, hlevels⟩, hlatch⟩ := effect_writes heffect
  exact ⟨t, es, hexec, htrace, hlength, hlevels, hlatch⟩

/-- Settles O37: another PTR is an unread change. -/
theorem ptrIsTheTicksAlone : Obligations.PtrIsTheTicksAlone := by
  refine ⟨fun s hp => ⟨_, exec_tick_present hp, by simp⟩, fun s hp => ⟨_, exec_init_absent hp, rfl⟩, ?_⟩
  intro i s q notTick notCreate
  obtain ⟨t, hexec, heffect⟩ := exec_effect i s
  refine ⟨t, hexec, effect_ptr heffect notTick notCreate, ?_⟩
  calc exec i (withPtr q s) = mapNext (withPtr q) (exec i s) := (unread_withPtr q).exec notTick notCreate
    _ = .next (withPtr q t) := by rw [hexec]; rfl

/-- Settles O50: another CTX is a hidden change. -/
theorem ctxIsHidden : Obligations.CtxIsHidden := by
  refine ⟨rfl, fun i s x => ?_⟩
  obtain ⟨t, hexec, heffect⟩ := exec_effect i s
  refine ⟨t, hexec, effect_ctx heffect, ?_⟩
  calc exec i (withCtx x s) = mapNext (withCtx x) (exec i s) := (hidden_withCtx x).exec i s
    _ = .next (withCtx x t) := by rw [hexec]; rfl

/-- Settles O51: putting the earlier responses before those of a state that has returned nothing is a hidden change. -/
theorem responsesComeFromEncAlone : Obligations.ResponsesComeFromEncAlone := by
  intro i s
  obtain ⟨t, hexec, -⟩ := exec_effect i { s with responses := [] }
  have hs : afterResponses s.responses { s with responses := [] } = s := by simp [afterResponses]
  have hnext : exec i s = .next (afterResponses s.responses t) := by
    have := (hidden_afterResponses s.responses).exec i { s with responses := [] }
    rwa [hs, hexec] at this
  exact ⟨_, hnext, effect_responses (effect_of_exec hnext), t.responses, rfl, hexec⟩

/-- Settles O52. -/
theorem resetState : Obligations.ResetState :=
  ⟨rfl, readLatch_reset, rfl, rfl, rfl, rfl⟩

/-- Settles O53: nothing is present, written, returned or faulting after reset. -/
theorem invariantHoldsAtReset : Obligations.InvariantHoldsAtReset := fun cs fs =>
  { buffers := nofun
    latches := fun l => by
      cases l with
      | seg sg => exact readLatch_reset (.seg sg)
      | dig p => exact readLatch_reset (.dig p)
    events := nofun
    absent := fun _ => rfl
    responses := nofun
    context := rfl
    record := rfl }

/-- Settles O56, from the latches INIT and SHOW's writes leave. -/
theorem lightingIsKnownAfterATick : Obligations.LightingIsKnownAfterATick := by
  refine ⟨fun p sg s => ⟨lighting_eq_lit, lighting_eq_unknown, fun hlit => ?_, fun hdark => ?_⟩, fun s hp => ?_,
    fun s hp => ?_⟩
  · simp [mayBeLit_of_known, hlit]
  · simp [mayBeLit_of_known, hdark]
  · exact ⟨_, exec_init_absent hp, fun p sg =>
      lighting_of_unspec (readLatch_createShared _ s) (readLatch_createShared _ s)⟩
  · exact ⟨_, exec_tick_present hp, fun p sg => lighting_showWrites_known _ p sg _ _⟩
end
section
/-! The statements about the command word: which words spell a row of the opcode table, what the decoder answers on each
word, that encoding and decoding are inverse, and what the operand bytes above their range do. -/

namespace Sys2Proof

/-! ## The opcode map -/

theorem Opcode.byte_injective : Function.Injective Opcode.byte := fun o o' h =>
  Option.some.inj (by rw [← opcodeOf?_byte o, ← opcodeOf?_byte o', h])

theorem Opcode.matchWord_eq_assemble (o : Opcode) : o.matchWord = assemble o.byte 0#8 0#8 0#8 0#32 := by
  cases o <;> decide

/-- R72, R76: what a format's mask leaves of a word is its `op` alone exactly when the must-be-zero fields are zero. -/
theorem Format.and_maskWord_eq_iff (f : Format) (w : Word) (op : Byte) :
    w &&& f.maskWord = assemble op 0#8 0#8 0#8 0#32 ↔ opField w = op ∧ f.reservedZero w = true := by
  have mask_n : Format.maskWord .n = assemble 0xFF#8 0xFF#8 0xFF#8 0xFF#8 0xFFFFFFFF#32 := by decide
  have mask_s : Format.maskWord .s = assemble 0xFF#8 0xFF#8 0x00#8 0xFF#8 0x00000000#32 := by decide
  have ones8 (x : Byte) : x &&& 0xFF#8 = x := BitVec.and_allOnes
  have ones32 (x : Value) : x &&& 0xFFFFFFFF#32 = x := BitVec.and_allOnes
  conv_lhs => rw [← assemble_fields w]
  cases f with
  | n => rw [mask_n, assemble_and, assemble_inj]; simp [Format.reservedZero, ones8, ones32, and_assoc]
  | s => rw [mask_s, assemble_and, assemble_inj]; simp [Format.reservedZero, ones8]
  | p | g | m | d | l =>
    rw [Format.maskWord, Laws.mask_a, assemble_and, assemble_inj]
    simp [Format.reservedZero, ones8, ones32, and_assoc]

/-- R76: a word spells a row exactly when its `op` is the row's and its must-be-zero fields are zero. -/
theorem Opcode.spells_iff (o : Opcode) (w : Word) :
    o.spells w = true ↔ opField w = o.byte ∧ o.format.reservedZero w = true := by
  rw [Opcode.spells, beq_iff_eq, o.matchWord_eq_assemble, Format.and_maskWord_eq_iff]

/-! ## The decoder, one check at a time (R78) -/

section Decode

variable {w : Word} {o : Opcode}

theorem decode_unassigned (hop : ∀ o : Opcode, opField w ≠ o.byte) : decode w = .reject .illegalOpcode := by
  have hnone : opcodeOf? (opField w) = none := by
    cases h : opcodeOf? (opField w) with
    | none => rfl
    | some o => exact absurd (byte_of_opcodeOf? h).symm (hop o)
  simp [decode, hnone]

theorem decode_reserved (hop : opField w = o.byte) (hz : o.format.reservedZero w = false) :
    decode w = .reject .reservedNonzero := by
  simp [decode, hop, hz]

theorem decode_range {c : FaultCode} (hop : opField w = o.byte) (hz : o.format.reservedZero w = true)
    (hr : o.format.rangeFault (aField w) (bField w) = some c) : decode w = .reject c := by
  simp [decode, hop, hz, hr]

theorem decode_command (hop : opField w = o.byte) (hz : o.format.reservedZero w = true)
    (hr : o.format.rangeFault (aField w) (bField w) = none) :
    decode w = .instr (o.make (aField w) (bField w) (vField w)) := by
  simp [decode, hop, hz, hr]

/-- A word that decodes has passed the three checks. -/
theorem checks_of_decode {i : Instr} (h : decode w = .instr i) :
    ∃ o : Opcode, opField w = o.byte ∧ o.format.reservedZero w = true
      ∧ o.format.rangeFault (aField w) (bField w) = none ∧ i = o.make (aField w) (bField w) (vField w) := by
  cases ho : opcodeOf? (opField w) with
  | none => simp [decode, ho] at h
  | some o =>
    have hop : opField w = o.byte := (byte_of_opcodeOf? ho).symm
    cases hz : o.format.reservedZero w with
    | false => rw [decode_reserved hop hz] at h; cases h
    | true =>
      cases hr : o.format.rangeFault (aField w) (bField w) with
      | some c => rw [decode_range hop hz hr] at h; cases h
      | none =>
        rw [decode_command hop hz hr] at h
        cases h
        exact ⟨o, hop, hz, hr, rfl⟩

end Decode

theorem Decoded.eq_instr_of_instr? {d : Decoded} {i : Instr} (h : d.instr? = some i) : d = .instr i := by
  cases d with
  | instr j => exact congrArg _ (Option.some.inj h)
  | reject c => cases h

theorem decode_tickWord : decode 0x0500000000000000#64 = .instr .tick := by decide

/-! ## Commands and their fields -/

/-- A command is its opcode with its own operands. -/
theorem Instr.make_operands (i : Instr) : i.opcode.make i.aOperand i.bOperand i.vOperand = i := by cases i <;> rfl

/-- R75, format by format. -/
theorem Format.rangeFault_eq_none (f : Format) (a b : Byte) :
    f.rangeFault a b = none ↔ (f = .d → a.toNat ≤ 15) ∧ (f = .l → a.toNat ≤ 11)
      ∧ (f = .s → 2 ≤ b.toNat ∧ b.toNat ≤ 16) := by
  cases f with
  | d | l => simp [Format.rangeFault]
  | s => simp [Format.rangeFault, Config.baseMin, Config.baseMax]; omega
  | n | p | g | m => simp [Format.rangeFault]

/-- R75: a command is well-formed exactly when its operands are in the range of its format. -/
theorem Opcode.wf_make (o : Opcode) (a b : Byte) (v : Value) :
    (o.make a b v).wf = true ↔ o.format.rangeFault a b = none := by
  rw [Format.rangeFault_eq_none]
  cases o with
  | encapply | enc => exact decide_eq_true_iff.trans (by simp [Opcode.format, Config.romEntries, Nat.lt_succ_iff])
  | pinhi | pinlo | pintgl => exact decide_eq_true_iff.trans (by simp [Opcode.format, Config.nLines, Nat.lt_succ_iff])
  | setnum => exact decide_eq_true_iff.trans (by simp [Opcode.format, Config.baseMin, Config.baseMax])
  | _ => simp [Opcode.make, Opcode.format, Instr.wf]

/-- R72: the must-be-zero fields of a word are all that its command does not keep. -/
theorem Opcode.reservedZero_iff_encode_make (o : Opcode) (w : Word) :
    o.format.reservedZero w = true ↔ assemble o.byte (aField w) (bField w) (zField w) (vField w)
      = encode (o.make (aField w) (bField w) (vField w)) := by
  cases o <;> simp [Opcode.make, Opcode.format, Format.reservedZero, encode, Instr.opcode, Instr.aOperand,
    Instr.bOperand, Instr.vOperand, assemble_inj, and_assoc]

theorem reservedZero_encode (i : Instr) : i.opcode.format.reservedZero (encode i) = true := by
  rw [Opcode.reservedZero_iff_encode_make]
  simp [encode, i.make_operands]

/-! ## Operand bytes above their range (R74) -/

theorem Machine.positionOperand_mod (a : Byte) : Machine.positionOperand (a % 4#8) = Machine.positionOperand a := by
  simp [Machine.positionOperand, BitVec.toNat_umod, Position.ofIndex_mod]

theorem Machine.segmentOperand_mod (a : Byte) : Machine.segmentOperand (a % 8#8) = Machine.segmentOperand a := by
  simp [Machine.segmentOperand, BitVec.toNat_umod, Segment.ofIndex_mod]

/-! ## One step (R233, R243, R244) -/

namespace Machine

theorem runWord_instr {run : Instr → State → Result} {w : Word} {i : Instr} (h : decode w = .instr i) (s : State) :
    runWord run w s = run i s := by
  simp [runWord, h]

theorem runWord_reject {run : Instr → State → Result} {w : Word} {c : FaultCode} {s : State}
    (h : decode w = .reject c) : runWord run w s = .next (raiseFault c s) := by
  simp [runWord, h]

/-- A running state where a tick is due runs one TICK in the tick context. -/
theorem step_of_tickDue {s : State} (hrun : Running s) (hdue : tickDue s = true) :
    step s = mapNext (fun u => holdFiring (nextSlot s).during (returnFromTick u))
      (exec .tick (enterTick (dropSlot s))) := by
  have hturn : arbitrate s = .tick (nextSlot s).during (enterTick (dropSlot s)) := by
    unfold arbitrate; rw [hrun]; simp [hdue]
  rw [step, takeTurn, hturn]

/-- A running state where no tick is due runs the next presented word. -/
theorem step_of_word {s : State} {w : Word} {rest : List Word} (hrun : Running s) (hdue : tickDue s = false)
    (hword : s.commands = w :: rest) :
    step s = mapNext (endCommand w (nextSlot s).during) (runWord exec w (dropCommand (dropSlot s))) := by
  have hturn : arbitrate s = .issue w (nextSlot s).during (dropCommand (dropSlot s)) := by
    unfold arbitrate; rw [hrun]; simp [hdue, hword]
  rw [step, takeTurn, hturn]

/-- The state with another command stream and another schedule (log 1, 2). -/
def withInputs (cs : List Word) (fs : List Slot) (s : State) : State := { s with commands := cs, firings := fs }

/-- Where no tick is pending, entering the tick context changes CTX alone. -/
theorem enterTick_of_not_pending {s : State} (h : s.tickPending = false) : enterTick s = withCtx .tk s := by
  simp [enterTick, withCtx, h]

end Machine

end Sys2Proof

open Sys2Proof Sys2Proof.Machine

/-- Settles O4: the word of a command passes each check and its fields are the command's operands. -/
theorem decodeEncodeRoundTrip : Obligations.DecodeEncodeRoundTrip := by
  intro i hwf
  have hop : opField (encode i) = i.opcode.byte := by simp [encode]
  have hrange : i.opcode.format.rangeFault (aField (encode i)) (bField (encode i)) = none := by
    rw [← i.make_operands, Opcode.wf_make] at hwf
    simpa [encode] using hwf
  rw [decode_command hop (reservedZero_encode i) hrange]
  simp [encode, i.make_operands]

/-- Settles O5: the must-be-zero fields are all that the command does not keep of its word. -/
theorem encodeDecodeRoundTrip : Obligations.EncodeDecodeRoundTrip := by
  intro w i h
  obtain ⟨o, hop, hzero, hrange, rfl⟩ := checks_of_decode h
  refine ⟨?_, (o.wf_make _ _ _).2 hrange⟩
  rw [← (o.reservedZero_iff_encode_make w).1 hzero, ← hop, assemble_fields]

/-- Settles O6, from what the mask leaves of a word. -/
theorem opcodeMapIsUnambiguous : Obligations.OpcodeMapIsUnambiguous := by
  refine ⟨Opcode.spells_iff, fun o o' w h h' => Opcode.byte_injective ?_⟩
  rw [← ((o.spells_iff w).1 h).1, ((o'.spells_iff w).1 h').1]

/-- Settles O7: the checks one at a time; what a rejected word does is to raise its fault. -/
theorem decodeOrderAndFaults : Obligations.DecodeOrderAndFaults := by
  intro w
  refine ⟨decode_unassigned, fun o hop => ⟨fun hspells => ?_, fun hspells => ?_⟩, by decide, fun c hreject s => ?_⟩
  · refine decode_reserved hop (Bool.eq_false_iff.2 fun hzero => ?_)
    rw [(o.spells_iff w).2 ⟨hop, hzero⟩] at hspells
    cases hspells
  · obtain ⟨-, hzero⟩ := (o.spells_iff w).1 hspells
    refine ⟨fun hd ha => decode_range hop hzero ?_, fun hl ha => decode_range hop hzero ?_,
      fun hs hb => decode_range hop hzero ?_, fun hd hl hs => decode_command hop hzero ?_⟩
    · rw [hd]; exact if_pos ha
    · rw [hl]; exact if_pos ha
    · rw [hs]; exact if_pos hb
    · exact (Format.rangeFault_eq_none _ _ _).2 ⟨hd, hl, hs⟩
  · exact ⟨raiseFault c s, runWord_reject hreject, raiseFault_onlyFaults c s⟩

/-- Settles O9: each of the six commands is well-formed, and reads its byte modulo 4 or 8. -/
theorem operandAliases : Obligations.OperandAliases := by
  intro a
  refine ⟨fun i hi => decodeEncodeRoundTrip i ?_, fun s => ⟨?_, ?_⟩⟩
  · simp only [List.mem_cons, List.not_mem_nil, or_false] at hi
    rcases hi with rfl | rfl | rfl | rfl | rfl | rfl <;> rfl
  · simp [exec, execSetdp, execShow, execDigen, execDigdis, positionOperand_mod]
  · simp [exec, execSegen, execSegdis, segmentOperand_mod]

/-- Settles O45: the arbiter gives the turn to the word, and the word runs what it decodes to. -/
theorem stepRunsTheDecodedCommand : Obligations.StepRunsTheDecodedCommand := by
  refine ⟨fun s w rest i hrun hdue hword hdecode => ?_, fun s w i hw htable => ?_⟩
  · rw [step_of_word hrun hdue hword, runWord_instr hdecode]
  · have hdecode : decode (BitVec.ofNat 64 w) = .instr i := by
      rw [decodeTableWord, Nat.mod_eq_of_lt hw] at htable
      exact Decoded.eq_instr_of_instr? htable
    have hfetch : s.withFetchWord 64 w = presentWord (BitVec.ofNat 64 w) s := by
      rw [State.withFetchWord, Nat.mod_eq_of_lt hw]
    rw [hfetch, step_of_word (presentWord_fault _ s) rfl (presentWord_commands _ s), runWord_instr hdecode]
    rfl

/-- Settles O48: the two steps run TICK in states that differ in CTX alone, which TICK does not see. -/
theorem foregroundTickIsTriggerTick : Obligations.ForegroundTickIsTriggerTick := by
  intro s cs fs d hrun hctx hpending
  obtain ⟨u, hexec, heffect⟩ := exec_effect .tick (withInputs cs fs s)
  have hfg : u.ctx = .fg := (effect_ctx heffect).trans hctx
  have foreground : step (withInputs (0x0500000000000000#64 :: cs) (⟨false, d⟩ :: fs) s)
      = .next (endCommand 0x0500000000000000#64 d u) :=
    calc
      _ = mapNext (endCommand _ d) (runWord exec 0x0500000000000000#64 (withInputs cs fs s)) :=
        step_of_word (s := withInputs _ (⟨false, d⟩ :: fs) s) hrun (by simp [tickDue, nextSlot, withInputs, hpending]) rfl
      _ = _ := by rw [runWord_instr decode_tickWord, hexec]; rfl
  have trigger : step (withInputs cs (⟨true, d⟩ :: fs) s)
      = .next (holdFiring d (returnFromTick (withCtx .tk u))) :=
    calc
      _ = mapNext (fun v => holdFiring d (returnFromTick v)) (exec .tick (enterTick (withInputs cs fs s))) :=
        step_of_tickDue (s := withInputs _ (⟨true, d⟩ :: fs) s) hrun (by simp [tickDue, nextSlot, withInputs])
      _ = _ := by rw [enterTick_of_not_pending (s := withInputs cs fs s) hpending, (hidden_withCtx .tk).exec, hexec]; rfl
  exact ⟨_, _, foreground, trigger, ⟨⟨rfl, rfl, fun _ => rfl⟩, ⟨fun l => by cases l <;> rfl, rfl⟩, rfl, rfl⟩, hfg,
    rfl, rfl, rfl⟩

end

section
/-! The statements about the assembler: the operand names and numbers it reads, and the pseudo-instructions. -/

namespace Sys2Proof

namespace Machine

/-! ## Operand texts -/

/-- A text an operand may be without white space, commas or a comment in it. -/
def PlainText (x : List Char) : Prop := x ≠ [] ∧ ∀ c ∈ x, Plain c

theorem plainText_of_all {x : List Char}
    (h : (!x.isEmpty && x.all fun c => !isBlank c && c != ',' && c != ';') = true) : PlainText x := by
  simpa [PlainText, Plain, and_assoc] using h

theorem positionName_plain (p : Position) : PlainText (positionName p).toList :=
  plainText_of_all (by cases p <;> decide)

theorem segmentName_plain (sg : Segment) : PlainText (segmentName sg).toList :=
  plainText_of_all (by cases sg <;> decide)

theorem lineName_plain (l : Line) : PlainText (lineName l).toList :=
  plainText_of_all (by rcases l with x | x <;> cases x <;> decide)

theorem positionText_name (p : Position) : positionText (positionName p).toList = some p.index := by
  cases p <;> decide

theorem segmentText_name (sg : Segment) : segmentText (segmentName sg).toList = some sg.index := by
  cases sg <;> decide

theorem lineText_name (l : Line) : lineText (lineName l).toList = some l.number := by
  rcases l with x | x <;> cases x <;> decide

end Machine

/-- What a command of the format reads of its one operand text (R80). -/
def Format.operandText : Format → List Char → Option Nat
  | .p, x => Machine.positionText x
  | .g, x => Machine.segmentText x
  | .m, x => Machine.numberUpTo 255 x
  | .d, x => Machine.numberUpTo 15 x
  | .l, x => Machine.lineText x
  | .n, _ => none
  | .s, _ => none

namespace Machine

/-! ## Lines of one command -/

theorem assembleWords_mnemonic (o : Opcode) (ops : List (List Char)) :
    assembleWords o.mnemonic.toList ops = (assembleCommand o ops).map fun i => [encode i] := by
  simp [assembleWords, find_opcode_mnemonic]

theorem assembleCommand_one (o : Opcode) (x : List Char) :
    assembleCommand o [x] = withA o (o.format.operandText x) := by
  cases o <;> rfl

theorem encode_withA {o : Opcode} (ho : o.format ≠ .n ∧ o.format ≠ .s) (a : Option Nat) :
    ((withA o a).map fun i => [encode i])
      = a.map fun n => [assemble o.byte (BitVec.ofNat 8 n) 0#8 0#8 0#32] := by
  cases a with
  | none => rfl
  | some n => simpa using encode_withA_ranged o ho True n

/-- A mnemonic and one operand text assemble to the word with the number that the format reads in operand A. -/
theorem assembleLine_operand (o : Opcode) {x : String} (hx : PlainText x.toList) :
    assembleLine (o.mnemonic ++ " " ++ x)
      = (o.format.operandText x.toList).map fun n => [assemble o.byte (BitVec.ofNat 8 n) 0#8 0#8 0#32] := by
  obtain ⟨hne, hplain⟩ := mnemonic_plain o
  rw [assembleLine_one (A := o.mnemonic.toList) (x := x.toList) (by simp) hplain hne hx.2 hx.1,
    assembleWords_mnemonic, assembleCommand_one]
  by_cases ho : o.format ≠ .n ∧ o.format ≠ .s
  · exact encode_withA ho _
  · have hnone : o.format.operandText x.toList = none := by
      rcases not_and_or.1 ho with h | h <;> rw [not_not.1 h] <;> rfl
    rw [hnone]; rfl

/-- SETNUM reads a value and a base (R80). -/
theorem assembleLine_setnum {x y : String} {n m : Nat} (hx : readNumber x.toList = some n)
    (hy : readNumber y.toList = some m) :
    assembleLine ("SETNUM " ++ x ++ ", " ++ y) = if n ≤ 4294967295 ∧ m ≤ 255
      then some [assemble 0x02#8 0#8 (BitVec.ofNat 8 m) 0#8 (BitVec.ofNat 32 n)] else none := by
  obtain ⟨hne, hplain⟩ := mnemonic_plain .setnum
  obtain ⟨hxe, hxp⟩ := plain_number hx
  obtain ⟨hye, hyp⟩ := plain_number hy
  rw [assembleLine_two (A := Opcode.setnum.mnemonic.toList) (x := x.toList) (y := y.toList)
    (by simp [Opcode.mnemonic]) hplain hne hxp hxe hyp hye, assembleWords_mnemonic]
  simp only [assembleCommand, Opcode.format, numberUpTo_eq hx, numberUpTo_eq hy]
  by_cases hn : n ≤ 4294967295
  · by_cases hm : m ≤ 255
    · simp [hn, hm]; rfl
    · simp [hn, hm]
  · simp [hn]

/-! ## Lines of one pseudo-instruction -/

/-- A name that is no mnemonic and one number assemble to the words of the pseudo-instruction, if any. -/
theorem assembleLine_pseudo {name x : String} {n : Nat} (hname : PlainText name.toList)
    (hnone : (Opcode.all.find? fun o => o.mnemonic.toList == name.toList) = none)
    (hx : readNumber x.toList = some n) :
    assembleLine (name ++ " " ++ x)
      = (assemblePseudo name.toList [x.toList]).map fun q => q.expand.map encode := by
  obtain ⟨hxe, hxp⟩ := plain_number hx
  rw [assembleLine_one (A := name.toList) (x := x.toList) (by simp) hname.2 hname.1 hxp hxe]
  simp [assembleWords, hnone]

/-- The names of the three pseudo-instructions with a number, and the base of each (R81). -/
def pseudoBases : List (String × Byte) := [("SETDEC", 10#8), ("SETHEX", 16#8), ("SETBIN", 2#8)]

theorem pseudoBases_plain : ∀ q ∈ pseudoBases, PlainText q.1.toList := by
  simp only [pseudoBases, List.forall_mem_cons]
  exact ⟨plainText_of_all (by decide), plainText_of_all (by decide), plainText_of_all (by decide), nofun⟩

theorem pseudoBases_no_mnemonic :
    ∀ q ∈ pseudoBases, (Opcode.all.find? fun o => o.mnemonic.toList == q.1.toList) = none := by
  decide

theorem assemblePseudo_base {q : String × Byte} (hq : q ∈ pseudoBases) {x : List Char} {n : Nat}
    (hx : readNumber x = some n) :
    ((assemblePseudo q.1.toList [x]).map fun q => q.expand.map encode)
      = if n ≤ 4294967295 then some [encode (.setnum (BitVec.ofNat 32 n) q.2)] else none := by
  simp only [assemblePseudo, numberUpTo_eq hx]
  by_cases hn : n ≤ 4294967295
  · simp only [pseudoBases, List.mem_cons, List.not_mem_nil, or_false] at hq
    rcases hq with rfl | rfl | rfl <;> simp [hn, Pseudo.expand]
  · simp [hn]

end Machine

end Sys2Proof

open Sys2Proof Sys2Proof.Machine

/-- Settles O1: each line, word and command evaluated. -/
theorem workedEncodings : Obligations.WorkedEncodings := by
  unfold Obligations.WorkedEncodings
  decide

/-- Settles O2. -/
theorem pseudoInstructionsExpand : Obligations.PseudoInstructionsExpand :=
  ⟨fun _ => ⟨rfl, rfl, rfl⟩, rfl, by decide, by decide, by decide, by decide⟩

/-- Settles O3: every name is a plain text that its format reads as the name's index. -/
theorem assemblerReadsNames : Obligations.AssemblerReadsNames := by
  refine ⟨fun o p ho => ?_, fun o sg ho => ?_, fun o l ho => ?_, by decide, by decide, by decide, by decide, by decide,
    by decide, by decide, by decide⟩
  · rw [assembleLine_operand o (positionName_plain p), ho, Format.operandText, positionText_name]; rfl
  · rw [assembleLine_operand o (segmentName_plain sg), ho, Format.operandText, segmentText_name]; rfl
  · rw [assembleLine_operand o (lineName_plain l), ho, Format.operandText, lineText_name]; rfl

/-- Settles O58: a number is a plain text that no name spells, so its format's range alone decides. -/
theorem assemblerRangesNumbers : Obligations.AssemblerRangesNumbers := by
  refine ⟨fun o x n hx => ?_, fun x y n m hx hy => assembleLine_setnum hx hy, fun x n hx q hq => ?_,
    fun n => ⟨readNumber_decimal n, readNumber_hex n⟩⟩
  · rw [assembleLine_operand o (plain_number hx)]
    refine ⟨?_, ?_, fun ho => ?_, fun ho => ?_⟩
    · rintro (ho | ho) <;> rw [ho] <;> rfl
    · rintro (ho | ho | ho) <;> rw [ho, Format.operandText]
      · rw [positionText_eq hx, Option.map_if]
      · rw [segmentText_eq hx, Option.map_if]
      · rw [numberUpTo_eq hx, Option.map_if]
    · rw [ho, Format.operandText, numberUpTo_eq hx, Option.map_if]
    · rw [ho, Format.operandText, lineText_eq hx, Option.map_if]
  · rw [assembleLine_pseudo (pseudoBases_plain q hq) (pseudoBases_no_mnemonic q hq) hx, assemblePseudo_base hq hx]
    rfl

end

section
/-! The statements about the segment encoder ROM: its entries, and what ENC answers. -/

namespace Sys2Proof.Machine

/-! ## Words with one operand of a bounded range (R72, R75) -/

/-- A row whose must-be-zero fields are all but `a`, and whose range is that of `a` up to `top`. -/
theorem spelledUpTo_of_format {o : Opcode} {top : Nat} {c : FaultCode} {f : Byte → Instr}
    (reserved : ∀ w, o.format.reservedZero w = (bField w == 0#8 && zField w == 0#8 && vField w == 0#32))
    (range : ∀ a b, o.format.rangeFault a b = if top < a.toNat then some c else none)
    (make : ∀ a b v, o.make a b v = f a) : SpelledUpTo o.byte top c f := by
  intro a b z v
  rw [decode_assemble, reserved, range, make]
  by_cases ha : a.toNat ≤ top
  · simp [ha, Nat.not_lt.2 ha, and_assoc]
  · simp [ha, Nat.not_le.1 ha, and_assoc]

/-! ## The entries (R101) -/

theorem segRom_ofNat : ∀ k < 16, segRom (BitVec.ofNat 4 k)
    = [0x3F#8, 0x06#8, 0x5B#8, 0x4F#8, 0x66#8, 0x6D#8, 0x7D#8, 0x07#8, 0x7F#8, 0x6F#8, 0x77#8, 0x7C#8, 0x39#8,
        0x5E#8, 0x79#8, 0x71#8].getD k 0#8 := by decide

/-! ## ENC (R102) -/

theorem exec_enc_legal {a : Byte} (h : a.toNat ≤ 15) (s : State) :
    exec (.enc a) s = .next (respond (segRom (BitVec.ofNat 4 a.toNat)) s) := by
  simp only [exec, execEnc, digitOperand_legal h]

theorem exec_enc_illegal {a : Byte} (h : 15 < a.toNat) (s : State) :
    exec (.enc a) s = .next (raiseFault .digitRange s) := by
  simp only [exec, execEnc, digitOperand_illegal h]

/-- A response changes nothing but the record of the port (R37). -/
theorem respond_frame (m : Byte) (s : State) :
    SameShared s (respond m s) ∧ SameLines s (respond m s) ∧ (respond m s).fault = s.fault
      ∧ SameInputs s (respond m s) :=
  ⟨⟨rfl, rfl, fun _ => rfl⟩, ⟨fun l => readLatch_respond l m s, rfl⟩, rfl, rfl, rfl, rfl, rfl, rfl, rfl⟩

end Sys2Proof.Machine

open Sys2Proof Sys2Proof.Machine

/-- Settles O11: ENC of a digit value responds with its entry, and the entries are those of R101. -/
theorem romContents : Obligations.RomContents := by
  intro s k hk
  have htoNat : (BitVec.ofNat 8 k).toNat = k := by rw [BitVec.toNat_ofNat]; omega
  refine ⟨_, exec_enc_legal (by omega) s, ?_⟩
  rw [respond_responses, htoNat, segRom_ofNat k hk]

/-- Settles O12, from the words of ENC's row, its two cases and what a response leaves unchanged. -/
theorem encRule : Obligations.EncRule := by
  refine ⟨spelledUpTo_of_format (o := .enc) (fun _ => rfl) (fun _ _ => rfl) (fun _ _ _ => rfl), fun a s => ⟨?_, ?_⟩⟩
  · intro legal
    exact ⟨_, exec_enc_legal legal s, respond_responses _ s, SegRom.entry_bit7 blockRom _, respond_frame _ s⟩
  · intro illegal
    exact ⟨_, exec_enc_illegal illegal s, raiseFault_onlyFaults .digitRange s⟩

/-- Settles O13. -/
theorem romDecimalPointClear : Obligations.RomDecimalPointClear :=
  fun rom v => ⟨SegRom.entry_bit7 rom v, rfl⟩

end

section
/-! The statements about the line driver (R121 to R131): its words, the one equation of each of its commands, the events
and the frame that follow from it, and that no well-formed command but a second INIT faults (R122). -/

namespace Sys2Proof.Machine

/-! ## Words without an operand, and words with any operand A (R72) -/

/-- A row whose must-be-zero fields are all but `op`. -/
theorem spelledN_of_format {o : Opcode} {i : Instr} (format : o.format = .n) (make : ∀ a b v, o.make a b v = i) :
    SpelledN o.byte i := by
  intro a b z v
  have hzero : o.format.reservedZero (assemble o.byte a b z v) = true ↔ a = 0#8 ∧ b = 0#8 ∧ z = 0#8 ∧ v = 0#32 := by
    simp [format, Format.reservedZero, and_assoc]
  have hrange : o.format.rangeFault a b = none := by rw [format]; rfl
  rw [decode_assemble, hrange, make, if_congr hzero rfl rfl]

/-- A row whose must-be-zero fields are all but `a`, and whose operand has no range. -/
theorem spelledA_of_format {o : Opcode} {f : Byte → Instr}
    (reserved : ∀ w, o.format.reservedZero w = (bField w == 0#8 && zField w == 0#8 && vField w == 0#32))
    (range : ∀ a b, o.format.rangeFault a b = none) (make : ∀ a b v, o.make a b v = f a) : SpelledA o.byte f := by
  intro a b z v
  have hzero : o.format.reservedZero (assemble o.byte a b z v) = true ↔ b = 0#8 ∧ z = 0#8 ∧ v = 0#32 := by
    simp [reserved, and_assoc]
  rw [decode_assemble, range, make, if_congr hzero rfl rfl]

/-! ## Each driver command as its line writes (R124 to R131) -/

/-- R74: a digit operand names its position by its residue. -/
theorem positionOperand_eq (a : Byte) : positionOperand a = Position.ofIndex (a.toNat % 4) :=
  (Position.ofIndex_mod _).symm

/-- R74: a segment operand names its segment by its residue. -/
theorem segmentOperand_eq (a : Byte) : segmentOperand a = Segment.ofIndex (a.toNat % 8) :=
  (Segment.ofIndex_mod _).symm

theorem exec_digen (a : Byte) (s : State) :
    exec (.digen a) s = .next (whenPresent (driveAll [⟨.dig (Position.ofIndex (a.toNat % 4)), .high⟩]) s) := by
  rw [← positionOperand_eq]; rfl

theorem exec_digdis (a : Byte) (s : State) :
    exec (.digdis a) s = .next (whenPresent (driveAll [⟨.dig (Position.ofIndex (a.toNat % 4)), .low⟩]) s) := by
  rw [← positionOperand_eq]; rfl

theorem exec_segen (a : Byte) (s : State) :
    exec (.segen a) s = .next (whenPresent (driveAll [⟨.seg (Segment.ofIndex (a.toNat % 8)), .low⟩]) s) := by
  rw [← segmentOperand_eq]; rfl

theorem exec_segdis (a : Byte) (s : State) :
    exec (.segdis a) s = .next (whenPresent (driveAll [⟨.seg (Segment.ofIndex (a.toNat % 8)), .released⟩]) s) := by
  rw [← segmentOperand_eq]; rfl

theorem exec_digdisall (s : State) : exec .digdisall s = .next (whenPresent (driveAll digitsOffWrites) s) := rfl

theorem exec_apply (a : Byte) (s : State) : exec (.apply a) s = .next (whenPresent (driveAll (maskWrites a)) s) := rfl

/-- R129: SEGDISALL is APPLY of the blank mask. -/
theorem exec_segdisall (s : State) : exec .segdisall s = exec (.apply 0x00#8) s := by
  rw [exec_apply, ← segmentsOffWrites_eq]; rfl

/-- R131: ENCAPPLY of a digit value is APPLY of its ROM entry. -/
theorem exec_encapply_legal {a : Byte} (h : a.toNat ≤ 15) (s : State) :
    exec (.encapply a) s = exec (.apply (segRom (BitVec.ofNat 4 a.toNat))) s := by
  rw [exec_apply]
  simp only [exec, execEncapply, digitOperand_legal h]

theorem exec_encapply_illegal {a : Byte} (h : 15 < a.toNat) (s : State) :
    exec (.encapply a) s = .next (raiseFault .digitRange s) := by
  simp only [exec, execEncapply, digitOperand_illegal h]

/-! ## What follows from a command being line writes -/

section LineCommand

variable {i : Instr} {s : State} {es : List LineEvent}
  (hexec : exec i s = .next (whenPresent (driveAll es) s))
include hexec

theorem exec_of_present (hp : s.present = true) : exec i s = .next (driveAll es s) := by
  rw [hexec, whenPresent_present _ hp]

theorem exec_of_absent (hp : s.present = false) : exec i s = .next s := by
  rw [hexec, whenPresent_absent _ hp]

/-- While present the command makes its line writes and changes nothing else. -/
theorem exec_writes (hp : s.present = true) : ∃ t, exec i s = .next t ∧ Writes es s t :=
  ⟨_, exec_of_present hexec hp, driveAll_writes es s⟩

end LineCommand

/-! ## Segments of a disabled digit, and the decimal point of a ROM entry -/

/-- R30, R128: no segment of a digit whose line is Low is lit, nor may be, whatever its own line holds (log 7). -/
theorem not_lit_of_digit_low {p : Position} {s : State} (h : readLatch (.dig p) s = .low) (sg : Segment) :
    mayBeLit p sg s = false ∧ lighting p sg s ≠ .lit := by
  refine ⟨by simp [mayBeLit, h], fun hlit => ?_⟩
  obtain ⟨hhigh, -⟩ := lighting_eq_lit.1 hlit
  rw [h] at hhigh
  cases hhigh

/-- R130: after APPLY's writes a segment line holds its own mask bit's level. -/
theorem readLatch_maskWrites_seg (m : Byte) (sg : Segment) (s : State) :
    readLatch (.seg sg) (driveAll (maskWrites m) s) = patternLevel m sg := by
  rw [readLatch_driveAll, maskWrites_seg]

/-- R130: APPLY's writes leave the digit lines as they were. -/
theorem readLatch_maskWrites_dig (m : Byte) (p : Position) (s : State) :
    readLatch (.dig p) (driveAll (maskWrites m) s) = readLatch (.dig p) s := by
  rw [readLatch_driveAll, maskWrites_dig]

/-- R103, R131: a ROM entry releases the decimal point. -/
theorem patternLevel_segRom_dp (v : BitVec 4) : patternLevel (segRom v) .dp = .released := by
  have hbit : maskBit (segRom v) .dp = false := SegRom.entry_bit7 blockRom v
  rw [patternLevel, hbit]; rfl

/-! ## Faults (R122) -/

/-- R78, R122, R150: past the decode checks a second INIT alone writes FAULT. -/
theorem effect_fault {i : Instr} {s t : State} (h : Effect i s t) (hwf : i.wf = true)
    (notReinit : ¬ (i = .init ∧ s.present = true)) : t.fault = s.fault := by
  cases h with
  | fault c why =>
    rcases why with illFormed | reinit
    · rw [hwf] at illFormed; cases illFormed
    · exact absurd reinit notReinit
  | _ => simp

end Sys2Proof.Machine

open Sys2Proof Sys2Proof.Machine

/-- Settles O21: each of the four commands is one line write. -/
theorem singleLineDriverRules : Obligations.SingleLineDriverRules := by
  refine ⟨⟨?_, ?_, ?_, ?_⟩, fun a s => ⟨fun hp => ?_, fun hp => ?_⟩⟩
  · exact spelledA_of_format (o := .digen) (fun _ => rfl) (fun _ _ => rfl) (fun _ _ _ => rfl)
  · exact spelledA_of_format (o := .digdis) (fun _ => rfl) (fun _ _ => rfl) (fun _ _ _ => rfl)
  · exact spelledA_of_format (o := .segen) (fun _ => rfl) (fun _ _ => rfl) (fun _ _ _ => rfl)
  · exact spelledA_of_format (o := .segdis) (fun _ => rfl) (fun _ _ => rfl) (fun _ _ _ => rfl)
  · exact ⟨exec_writes (exec_digen a s) hp, exec_writes (exec_digdis a s) hp, exec_writes (exec_segen a s) hp,
      exec_writes (exec_segdis a s) hp⟩
  · exact ⟨exec_of_absent (exec_digen a s) hp, exec_of_absent (exec_digdis a s) hp,
      exec_of_absent (exec_segen a s) hp, exec_of_absent (exec_segdis a s) hp⟩

/-- Settles O22: the writes leave every digit line Low, and a Low digit line lights nothing. -/
theorem digdisallRule : Obligations.DigdisallRule := by
  refine ⟨spelledN_of_format (o := .digdisall) rfl (fun _ _ _ => rfl), fun s => ⟨fun hp => ?_, ?_⟩⟩
  · refine ⟨_, exec_of_present (exec_digdisall s) hp, driveAll_writes digitsOffWrites s, fun p sg => ?_⟩
    exact not_lit_of_digit_low (by rw [readLatch_driveAll, digitsOffWrites_dig]) sg
  · exact exec_of_absent (exec_digdisall s)

/-- Settles O23: SEGDISALL is APPLY of the blank mask. -/
theorem segdisallRule : Obligations.SegdisallRule := by
  refine ⟨spelledN_of_format (o := .segdisall) rfl (fun _ _ _ => rfl), fun s => ?_⟩
  rw [exec_segdisall]
  refine ⟨fun hp => ?_, exec_of_absent (exec_apply _ s)⟩
  have happly := exec_of_present (exec_apply 0x00#8 s) hp
  exact ⟨_, happly, driveAll_writes (maskWrites 0x00#8) s, happly⟩

/-- Settles O24, from what the mask's writes leave on each line. -/
theorem applyRule : Obligations.ApplyRule := by
  refine ⟨spelledA_of_format (o := .apply) (fun _ => rfl) (fun _ _ => rfl) (fun _ _ _ => rfl),
    fun a s => ⟨fun hp => ?_, ?_⟩⟩
  · exact ⟨_, exec_of_present (exec_apply a s) hp, driveAll_writes (maskWrites a) s,
      fun sg => readLatch_maskWrites_seg a sg s, fun p => readLatch_maskWrites_dig a p s⟩
  · exact exec_of_absent (exec_apply a s)

/-- Settles O25: up to 15 it is APPLY of the ROM entry, whose bit 7 is clear. -/
theorem encapplyRule : Obligations.EncapplyRule := by
  refine ⟨spelledUpTo_of_format (o := .encapply) (fun _ => rfl) (fun _ _ => rfl) (fun _ _ _ => rfl),
    fun a s => ⟨fun legal hp => ?_, fun legal hp => ?_, fun illegal => ?_⟩⟩
  · have happly := exec_of_present (exec_apply (segRom (BitVec.ofNat 4 a.toNat)) s) hp
    refine ⟨_, (exec_encapply_legal legal s).trans happly, happly, driveAll_writes (maskWrites _) s, ?_⟩
    rw [readLatch_maskWrites_seg, patternLevel_segRom_dp]
  · exact (exec_encapply_legal legal s).trans (exec_of_absent (exec_apply _ s) hp)
  · exact ⟨_, exec_encapply_illegal illegal s, raiseFault_onlyFaults .digitRange s⟩

/-- Settles O40, from the effects of a command. -/
theorem onlyReinitFaultsAfterDecode : Obligations.OnlyReinitFaultsAfterDecode := by
  intro i s hwf notReinit
  obtain ⟨t, hexec, heffect⟩ := exec_effect i s
  exact ⟨t, hexec, effect_fault heffect hwf notReinit⟩

end

section
/-! The statements about the shared state and the buffers (R150 to R156): what each buffer command stores and leaves
unchanged, the digits of a number, that the lines depend on no buffer but through SHOW and TICK, and the invariants. -/

namespace Sys2Proof.Machine

/-! ## INIT (R150) -/

theorem exec_init_present {s : State} (h : s.present = true) : exec .init s = .next (raiseFault .reinit s) := by
  simp [exec, execInit, h]

/-! ## SETNUM (R151) -/

/-- R72, R75: the words of SETNUM. -/
theorem spelled_setnum : SpelledS 0x02#8 .setnum := by
  intro a b z v
  have hzero : Opcode.setnum.format.reservedZero (assemble 0x02#8 a b z v) = true ↔ a = 0#8 ∧ z = 0#8 := by
    simp [Opcode.format, Format.reservedZero]
  refine (decode_assemble .setnum a b z v).trans (if_congr hzero ?_ rfl)
  by_cases hb : 2 ≤ b.toNat ∧ b.toNat ≤ 16
  · have hrange : Opcode.setnum.format.rangeFault a b = none :=
      (Format.rangeFault_eq_none _ a b).2 (by simp [hb, Opcode.format])
    rw [hrange, if_pos hb]; rfl
  · have hrange : Opcode.setnum.format.rangeFault a b = some .baseRange :=
      if_pos (by simp only [Config.baseMin, Config.baseMax]; omega)
    rw [hrange, if_neg hb]

section Setnum

variable {b : Byte} {s : State}

theorem exec_setnum_present (hb : 2 ≤ b.toNat ∧ b.toNat ≤ 16) (hp : s.present = true) (v : Value) :
    exec (.setnum v b) s = .next (writeAllBufs (digitMask blockRom v.toNat b.toNat) s) := by
  simp only [exec, execSetnum, baseOperand_legal hb, whenPresent_present _ hp, valueOperand]

theorem exec_setnum_absent (hb : 2 ≤ b.toNat ∧ b.toNat ≤ 16) (hp : s.present = false) (v : Value) :
    exec (.setnum v b) s = .next s := by
  simp only [exec, execSetnum, baseOperand_legal hb, whenPresent_absent _ hp]

theorem exec_setnum_illegal (hb : b.toNat < 2 ∨ 16 < b.toNat) (v : Value) (s : State) :
    exec (.setnum v b) s = .next (raiseFault .baseRange s) := by
  simp only [exec, execSetnum, baseOperand_illegal hb]

end Setnum

/-- The four buffers are all that SETNUM writes. -/
theorem writeAllBufs_frame (f : Position → Byte) (s : State) :
    (writeAllBufs f s).present = s.present ∧ (writeAllBufs f s).ptr = s.ptr ∧ SameLines s (writeAllBufs f s)
      ∧ SameStatus s (writeAllBufs f s) :=
  ⟨rfl, rfl, ⟨fun l => readLatch_writeAllBufs l f s, rfl⟩, rfl, rfl, rfl, rfl, rfl, rfl, rfl, rfl⟩

/-! ## The digits of a number (R152) -/

/-- Four digits see no more of the value than its residue modulo base^4. -/
theorem digitAt_mod (v b : Nat) (p : Position) : digitAt (v % b ^ 4) b p = digitAt v b p := by
  have hpow : b ^ 4 = b ^ (3 - p.index) * (b ^ p.index * b) := by
    have := p.index_lt
    rw [← pow_succ, ← pow_add]; congr 1; omega
  rw [digitAt, hpow, Nat.mod_mul_right_div_self, Nat.mod_mul_left_mod, digitAt]

/-- The weighted sum of the four digits is the value modulo base^4. -/
theorem digitAt_sum (v b : Nat) :
    digitAt v b .d1 * b ^ 3 + digitAt v b .d2 * b ^ 2 + digitAt v b .d3 * b + digitAt v b .d4 = v % b ^ 4 := by
  simp only [Nat.mod_pow_succ, digitAt, Position.index, Nat.reduceSub, pow_one, pow_zero, Nat.div_one]
  ring

/-- SETNUM of the value and of its residue store the same buffers. -/
theorem digitMask_mod (rom : SegRom) (v b : Nat) : digitMask rom (v % b ^ 4) b = digitMask rom v b := by
  funext p
  rw [digitMask, digitAt_mod, digitMask]

/-! ## SETDP (R153) -/

theorem eq_positionOperand_iff {p : Position} {a : Byte} : p = positionOperand a ↔ p.index = a.toNat % 4 := by
  refine ⟨fun h => ?_, fun h => ?_⟩
  · rw [h, positionOperand, Position.index_ofIndex]
  · rw [positionOperand_eq, ← h, Position.ofIndex_index]

theorem exec_setdp_present {s : State} (hp : s.present = true) (a : Byte) :
    exec (.setdp a) s = .next (writeBuf (positionOperand a) (readBuf (positionOperand a) s ||| 0x80#8) s) := by
  simp only [exec, execSetdp, whenPresent_present _ hp]

theorem exec_setdp_absent {s : State} (hp : s.present = false) (a : Byte) : exec (.setdp a) s = .next s := by
  simp only [exec, execSetdp, whenPresent_absent _ hp]

/-- One buffer is all that SETDP writes. -/
theorem writeBuf_frame (p : Position) (m : Byte) (s : State) :
    (writeBuf p m s).present = s.present ∧ (writeBuf p m s).ptr = s.ptr ∧ SameLines s (writeBuf p m s)
      ∧ SameStatus s (writeBuf p m s) :=
  ⟨rfl, rfl, ⟨fun l => readLatch_writeBuf l p m s, rfl⟩, rfl, rfl, rfl, rfl, rfl, rfl, rfl, rfl⟩

/-! ## What a buffer holds after a command -/

/-- Everything a command can do to a buffer: keep it, blank it, store a digit, or set its decimal point. -/
theorem effect_readBuf {i : Instr} {s t : State} (h : Effect i s t) (p : Position) :
    (t.present = s.present ∧ readBuf p t = readBuf p s)
    ∨ (s.present = false ∧ readBuf p t = 0x00#8)
    ∨ (∃ v b, i = .setnum v b ∧ ∃ d, readBuf p t = segRom d)
    ∨ (s.present = true ∧ readBuf p t = readBuf p s ||| 0x80#8) := by
  cases h with
  | create absent => exact .inr (.inl ⟨absent, readBuf_createShared p s⟩)
  | number _ _ => exact .inr (.inr (.inl ⟨_, _, rfl, _, readBuf_writeAllBufs _ p s⟩))
  | @point a _ present =>
    rw [readBuf_writeBuf]
    by_cases hpa : p = positionOperand a
    · exact .inr (.inr (.inr ⟨present, by rw [if_pos hpa, hpa]⟩))
    · exact .inl ⟨rfl, if_neg hpa⟩
  | _ => exact .inl (by simp)

theorem legalBuffer_blank : LegalBuffer 0x00#8 := .inl rfl

theorem legalBuffer_segRom (d : BitVec 4) : LegalBuffer (segRom d) := .inr (.inr ⟨d, .inl rfl⟩)

/-- A decimal point may be set in every legal buffer, also in one that has it. -/
theorem LegalBuffer.or_point {m : Byte} (h : LegalBuffer m) : LegalBuffer (m ||| 0x80#8) := by
  rcases h with rfl | rfl | ⟨d, rfl | rfl⟩
  · exact .inr (.inl rfl)
  · exact .inr (.inl rfl)
  · exact .inr (.inr ⟨d, .inr rfl⟩)
  · exact .inr (.inr ⟨d, .inr (by rw [BitVec.or_assoc, BitVec.or_self])⟩)

/-- R154: every command keeps the buffers of a present state legal, and INIT makes them so. -/
theorem effect_legalBuffers {i : Instr} {s t : State} (h : Effect i s t)
    (legal : s.present = true → ∀ p, LegalBuffer (readBuf p s)) :
    t.present = true → ∀ p, LegalBuffer (readBuf p t) := by
  intro hp p
  rcases effect_readBuf h p with ⟨hpresent, hbuf⟩ | ⟨-, hbuf⟩ | ⟨_, _, -, d, hbuf⟩ | ⟨present, hbuf⟩
  · rw [hbuf]; exact legal (hpresent.symm.trans hp) p
  · rw [hbuf]; exact legalBuffer_blank
  · rw [hbuf]; exact legalBuffer_segRom d
  · rw [hbuf]; exact (legal present p).or_point

/-! ## The invariant of the machine -/

/-- The state with FAULT and its record, CTX, TICK_PENDING, PTR and the inputs at their values after reset: the
invariant reads of these CTX, FAULT and the record alone. So `Inv (atRest s)` is the invariant without its clauses
`context` and `record`, which do not hold in the midst of a step. -/
def atRest (s : State) : State :=
  { s with ptr := .d1, fault := none, tickPending := false, ctx := .fg, commands := [], position := 0, firings := []
           faulting := none }

@[simp] theorem atRest_present (s : State) : (atRest s).present = s.present := rfl
@[simp] theorem atRest_trace (s : State) : (atRest s).trace = s.trace := rfl
@[simp] theorem atRest_responses (s : State) : (atRest s).responses = s.responses := rfl
@[simp] theorem readBuf_atRest (p : Position) (s : State) : readBuf p (atRest s) = readBuf p s := rfl
@[simp] theorem readLatch_atRest (l : Line) (s : State) : readLatch l (atRest s) = readLatch l s := by cases l <;> rfl

@[simp] theorem atRest_raiseFault (c : FaultCode) (s : State) : atRest (raiseFault c s) = atRest s := rfl
@[simp] theorem atRest_advance (s : State) : atRest (advance s) = atRest s := rfl
@[simp] theorem atRest_dropSlot (s : State) : atRest (dropSlot s) = atRest s := rfl
@[simp] theorem atRest_dropCommand (s : State) : atRest (dropCommand s) = atRest s := rfl
@[simp] theorem atRest_enterTick (s : State) : atRest (enterTick s) = atRest s := rfl
@[simp] theorem atRest_returnFromTick (s : State) : atRest (returnFromTick s) = atRest s := rfl
@[simp] theorem atRest_holdFiring (b : Bool) (s : State) : atRest (holdFiring b s) = atRest s := rfl
@[simp] theorem atRest_endCommand (w : Word) (b : Bool) (s : State) : atRest (endCommand w b s) = atRest s := rfl

theorem inv_iff_atRest {s : State} :
    Inv s ↔ Inv (atRest s) ∧ s.ctx = .fg ∧ s.faulting.isSome = s.fault.isSome := by
  constructor
  · intro h
    exact ⟨{ h with context := rfl, record := rfl }, h.context, h.record⟩
  · rintro ⟨h, context, record⟩
    exact { h with context, record }

/-- Line writes of a present state to levels the lines can hold keep the invariant (R27, R28, R31). -/
theorem inv_driveAll {s : State} {es : List LineEvent} (present : s.present = true)
    (legal : ∀ e ∈ es, LegalLevel e.line e.level) (h : Inv (atRest s)) : Inv (atRest (driveAll es s)) where
  buffers _ p := by simpa using h.buffers present p
  latches l := by
    have hbefore : readLatch l s = levelAfter l .unspec s.trace := by simpa using h.latches l
    rw [readLatch_atRest, readLatch_driveAll, hbefore, atRest_trace, driveAll_trace, levelAfter_append]
  events := by simpa using List.forall_mem_append.2 ⟨h.events, legal⟩
  absent hp := by simp [present] at hp
  responses := by simpa using h.responses
  context := rfl
  record := rfl

/-- Every command keeps the invariant but for context and record. -/
theorem effect_inv {i : Instr} {s t : State} (h : Effect i s t) (hinv : Inv (atRest s)) : Inv (atRest t) := by
  have buffers : (atRest t).present = true → ∀ p, LegalBuffer (readBuf p (atRest t)) := by
    simpa using effect_legalBuffers h (by simpa using hinv.buffers)
  cases h with
  | noop | fault => exact hinv
  | number | point => exact { hinv with buffers }
  | create absent =>
    have htrace : s.trace = [] := hinv.absent absent
    refine { hinv with buffers, latches := fun l => ?_, absent := fun _ => htrace }
    simp [htrace]
  | lines present legal =>
    obtain ⟨-, levels⟩ := legal
    exact inv_driveAll present (fun e he => (levels e he).1) hinv
  | tick present =>
    exact inv_driveAll (s := advance s) present (fun e he => (showWrites_known _ _ e he).1) hinv
  | encode v _ =>
    have bit7 : ∀ m ∈ [segRom v], m.getLsbD 7 = false := List.forall_mem_singleton.2 (SegRom.entry_bit7 blockRom v)
    exact { hinv with responses := List.forall_mem_append.2 ⟨hinv.responses, bit7⟩ }

/-- A word has the effect of the command it decodes to, or raises the fault that rejects it (R78). -/
theorem runWord_cases {w : Word} {s t : State} (h : runWord exec w s = .next t) :
    (∃ i, decode w = .instr i ∧ Effect i s t) ∨ ∃ c, decode w = .reject c ∧ t = raiseFault c s := by
  cases hdecode : decode w with
  | instr i =>
    rw [runWord_instr hdecode] at h
    exact .inl ⟨i, rfl, effect_of_exec h⟩
  | reject c =>
    rw [runWord_reject hdecode] at h
    cases h; exact .inr ⟨c, rfl, rfl⟩

@[simp] theorem driveAll_faulting (es : List LineEvent) (s : State) : (driveAll es s).faulting = s.faulting := by
  obtain ⟨-, -, -, -, -, hfaulting⟩ := driveAll_sameInputs es s
  exact hfaulting

theorem effect_faulting {i : Instr} {s t : State} (h : Effect i s t) : t.faulting = s.faulting := by
  cases h <;> simp

/-- R232: the end of a foreground command leaves a record exactly where there is a fault. -/
theorem endCommand_record (w : Word) (b : Bool) (s : State) :
    (endCommand w b s).faulting.isSome = (endCommand w b s).fault.isSome := by
  cases hf : s.fault <;> simp [halted, hf]

/-! ## What the lines depend on (R155) -/

/-- SETNUM, SETDP and ENC touch no line. -/
theorem effect_sameLines {i : Instr} {s t : State} (h : Effect i s t)
    (hi : (∃ v b, i = .setnum v b) ∨ (∃ a, i = .setdp a) ∨ ∃ a, i = .enc a) : SameLines s t := by
  cases h with
  | lines _ _ _ _ notNumber notPoint notEnc =>
    rcases hi with ⟨v, b, rfl⟩ | ⟨a, rfl⟩ | ⟨a, rfl⟩
    · exact absurd rfl (notNumber v b)
    · exact absurd rfl (notPoint a)
    · exact absurd rfl (notEnc a)
  | create | tick => simp at hi
  | _ => exact ⟨by simp, by simp⟩

section SameLines

variable {s s' : State} (lines : SameLines s s')
include lines

theorem SameLines.driveAll (es : List LineEvent) : SameLines (driveAll es s) (driveAll es s') := by
  obtain ⟨hlatch, htrace⟩ := lines
  exact ⟨fun l => by rw [readLatch_driveAll, readLatch_driveAll, hlatch],
    by rw [driveAll_trace, driveAll_trace, htrace]⟩

theorem SameLines.drive (l : Line) (v : Level) : SameLines (Machine.drive l v s) (Machine.drive l v s') :=
  lines.driveAll [⟨l, v⟩]

theorem SameLines.raiseFault (c : FaultCode) : SameLines (raiseFault c s) (raiseFault c s') := by
  obtain ⟨hlatch, htrace⟩ := lines
  exact ⟨fun l => by rw [readLatch_raiseFault, readLatch_raiseFault, hlatch], htrace⟩

theorem SameLines.createShared : SameLines (createShared s) (createShared s') := by
  obtain ⟨-, htrace⟩ := lines
  exact ⟨fun l => by simp, htrace⟩

/-- States with the same lines have them after a command that touches none. -/
theorem SameLines.exec_lineless {i : Instr}
    (hi : (∃ v b, i = .setnum v b) ∨ (∃ a, i = .setdp a) ∨ ∃ a, i = .enc a) :
    ∃ t u, exec i s = .next t ∧ exec i s' = .next u ∧ SameLines t u := by
  obtain ⟨t, hexec, heffect⟩ := exec_effect i s
  obtain ⟨u, hexec', heffect'⟩ := exec_effect i s'
  obtain ⟨hlatch, htrace⟩ := lines
  obtain ⟨hlatch_t, htrace_t⟩ := effect_sameLines heffect hi
  obtain ⟨hlatch_u, htrace_u⟩ := effect_sameLines heffect' hi
  exact ⟨t, u, hexec, hexec', fun l => by rw [hlatch_u, hlatch, hlatch_t], by rw [htrace_u, htrace, htrace_t]⟩

variable (present : s'.present = s.present)
include present

theorem SameLines.whenPresent {f : State → State} (hf : SameLines (f s) (f s')) :
    SameLines (whenPresent f s) (whenPresent f s') := by
  cases hp : s.present
  · rwa [whenPresent_absent f hp, whenPresent_absent f (present.trans hp)]
  · rwa [whenPresent_present f hp, whenPresent_present f (present.trans hp)]

theorem SameLines.onLine {level : Line → State → Level} (hlevel : ∀ l, level l s' = level l s) (a : Byte) :
    ∃ t u, onLine a (fun l x => Machine.drive l (level l x) x) s = .next t
      ∧ onLine a (fun l x => Machine.drive l (level l x) x) s' = .next u ∧ SameLines t u := by
  unfold Machine.onLine
  cases lineOperand a with
  | none => exact ⟨_, _, rfl, rfl, lines.raiseFault _⟩
  | some l =>
    refine ⟨_, _, rfl, rfl, lines.whenPresent present ?_⟩
    simpa only [hlevel] using lines.drive l (level l s)

/-- What a command other than SHOW and TICK does to the lines depends on PRESENT and the lines alone. -/
theorem SameLines.exec {i : Instr} (notTick : i ≠ .tick) (notShow : ∀ a, i ≠ .showPos a) :
    ∃ t u, exec i s = .next t ∧ exec i s' = .next u ∧ SameLines t u := by
  cases i with
  | init =>
    cases hp : s.present
    · exact ⟨_, _, exec_init_absent hp, exec_init_absent (present.trans hp), lines.createShared⟩
    · exact ⟨_, _, exec_init_present hp, exec_init_present (present.trans hp), lines.raiseFault _⟩
  | setnum | setdp | enc => exact lines.exec_lineless (by simp)
  | showPos a => exact absurd rfl (notShow a)
  | tick => exact absurd rfl notTick
  | digen | digdis | segen | segdis => exact ⟨_, _, rfl, rfl, lines.whenPresent present (lines.drive _ _)⟩
  | digdisall | segdisall | apply => exact ⟨_, _, rfl, rfl, lines.whenPresent present (lines.driveAll _)⟩
  | encapply a =>
    simp only [Machine.exec, execEncapply]
    cases digitOperand a with
    | none => exact ⟨_, _, rfl, rfl, lines.raiseFault _⟩
    | some v => exact ⟨_, _, rfl, rfl, lines.whenPresent present (lines.driveAll _)⟩
  | pinhi a => exact lines.onLine present (level := fun l _ => setHighLevel l) (fun _ => rfl) a
  | pinlo a => exact lines.onLine present (level := fun l _ => setLowLevel l) (fun _ => rfl) a
  | pintgl a =>
    have ⟨hlatch, _⟩ := lines
    exact lines.onLine present (level := fun l x => toggledLevel l (readLatch l x)) (fun l => by rw [hlatch]) a

end SameLines

end Sys2Proof.Machine

open Sys2Proof Sys2Proof.Machine

/-- Settles O54: a TICK, a word and waiting each keep the invariant but for context and record, and the end of the step
restores these two. -/
theorem stepKeepsInvariant : Obligations.StepKeepsInvariant := by
  intro s t hinv hstep
  obtain ⟨hrest, hctx, hrecord⟩ := inv_iff_atRest.1 hinv
  obtain ⟨-, ⟨u, -, hexec, rfl⟩ | ⟨w, rest, u, -, -, hrun, rfl⟩ | ⟨-, -, rfl⟩⟩ := step_cases hstep
  · have heffect := effect_of_exec hexec
    have hinv' : Inv (atRest u) := effect_inv heffect (by simpa using hrest)
    have hfault' : u.fault = s.fault := by simpa using effect_fault heffect rfl (by simp)
    have hfaulting' : u.faulting = s.faulting := by simpa using effect_faulting heffect
    exact inv_iff_atRest.2 ⟨by simpa using hinv', by simp, by simpa [hfault', hfaulting'] using hrecord⟩
  · obtain ⟨hinv', hctx'⟩ : Inv (atRest u) ∧ u.ctx = s.ctx := by
      rcases runWord_cases hrun with ⟨i, -, heffect⟩ | ⟨c, -, rfl⟩
      · exact ⟨effect_inv heffect (by simpa using hrest), by simpa using effect_ctx heffect⟩
      · exact ⟨by simpa using hrest, by simp⟩
    exact inv_iff_atRest.2 ⟨by simpa using hinv', by simpa [hctx] using hctx', endCommand_record w _ u⟩
  · exact inv_iff_atRest.2 ⟨hrest, hctx, hrecord⟩

/-- Settles O14, from the two cases of INIT and what each store reads after the creation. -/
theorem initRule : Obligations.InitRule := by
  refine ⟨spelledN_of_format (o := .init) rfl (fun _ _ _ => rfl), fun s => ⟨fun hp => ?_, fun hp => ?_⟩⟩
  · exact ⟨_, exec_init_absent hp, rfl, fun p => readBuf_createShared p s, rfl,
      fun l => readLatch_createShared l s, rfl, rfl, rfl, rfl, rfl, rfl, rfl, rfl, rfl⟩
  · exact ⟨_, exec_init_present hp, raiseFault_onlyFaults .reinit s⟩

/-- Settles O15: the three cases of SETNUM, and that a digit is below its base. -/
theorem setnumRule : Obligations.SetnumRule := by
  refine ⟨spelled_setnum, fun v b s => ⟨fun hmin hmax hp => ?_, fun hmin hmax hp => ?_, fun illegal => ?_⟩⟩
  · refine ⟨_, exec_setnum_present ⟨hmin, hmax⟩ hp v, fun p => ⟨?_, readBuf_writeAllBufs _ p s⟩,
      writeAllBufs_frame _ s⟩
    have hdigit : digitAt v.toNat b.toNat p < b.toNat := digitAt_lt (by omega) p
    exact Nat.le_of_lt_succ (hdigit.trans_le hmax)
  · exact exec_setnum_absent ⟨hmin, hmax⟩ hp v
  · exact ⟨_, exec_setnum_illegal illegal v s, raiseFault_onlyFaults .baseRange s⟩

/-- Settles O16, from the arithmetic of the digits. -/
theorem setnumArithmeticLaw : Obligations.SetnumArithmeticLaw := by
  intro v b s hmin hmax hp
  have hresidue : (BitVec.ofNat 32 (v.toNat % b.toNat ^ 4)).toNat = v.toNat % b.toNat ^ 4 :=
    Nat.mod_eq_of_lt ((Nat.mod_le _ _).trans_lt v.isLt)
  refine ⟨_, digitAt v.toNat b.toNat, exec_setnum_present ⟨hmin, hmax⟩ hp v,
    fun p => ⟨readBuf_writeAllBufs _ p s, ?_, (digitAt_mod _ _ p).symm, rfl⟩, digitAt_sum _ _,
    fun hsmall => ?_, ?_⟩
  · exact digitAt_lt (by omega) p
  · rw [digitAt_sum, Nat.mod_eq_of_lt hsmall]
  · rw [exec_setnum_present ⟨hmin, hmax⟩ hp, hresidue, digitMask_mod]

/-- Settles O17: an operand addresses the position of its residue. -/
theorem setdpRule : Obligations.SetdpRule := by
  refine ⟨spelledA_of_format (o := .setdp) (fun _ => rfl) (fun _ _ => rfl) (fun _ _ _ => rfl),
    fun a s => ⟨fun hp => ?_, fun hp => exec_setdp_absent hp a⟩⟩
  refine ⟨_, exec_setdp_present hp a, fun p => ?_, writeBuf_frame _ _ s⟩
  rw [readBuf_writeBuf, if_congr eq_positionOperand_iff rfl rfl]
  split
  next h => rw [eq_positionOperand_iff.2 h]
  next => rfl

/-- Settles O18: another content of the buffers is a state with the same lines. -/
theorem bufferCommandsTouchNoLine : Obligations.BufferCommandsTouchNoLine := by
  refine ⟨fun i s hi => ?_, fun i s m notTick notShow => ?_⟩
  · rcases hi with rfl | hi
    · cases hp : s.present
      · exact ⟨_, exec_init_absent hp, rfl, fun notInit => absurd rfl notInit⟩
      · exact ⟨_, exec_init_present hp, rfl, fun notInit => absurd rfl notInit⟩
    · obtain ⟨t, hexec, heffect⟩ := exec_effect i s
      obtain ⟨hlatch, htrace⟩ := effect_sameLines heffect (hi.imp_right .inl)
      exact ⟨t, hexec, htrace, fun _ => hlatch⟩
  · have lines : SameLines s { s with buf := m } := ⟨fun l => by cases l <;> rfl, rfl⟩
    exact lines.exec rfl notTick notShow

/-- Settles O19: a ROM entry has no decimal point, and what else is done to a buffer of a present state keeps one. -/
theorem decimalPointLife : Obligations.DecimalPointLife := by
  refine ⟨fun v b s hmin hmax hp => ⟨_, exec_setnum_present ⟨hmin, hmax⟩ hp v, fun p => ?_⟩,
    fun i s hp notNumber => ?_⟩
  · rw [readBuf_writeAllBufs]; exact SegRom.entry_bit7 blockRom _
  · obtain ⟨t, hexec, heffect⟩ := exec_effect i s
    refine ⟨t, hexec, fun p hpoint => ?_⟩
    rcases effect_readBuf heffect p with ⟨-, hbuf⟩ | ⟨absent, -⟩ | ⟨v, b, rfl, -⟩ | ⟨-, hbuf⟩
    · rw [hbuf, hpoint]
    · rw [hp] at absent; cases absent
    · exact absurd rfl (notNumber v b)
    · rw [hbuf, BitVec.getLsbD_or, hpoint, Bool.true_or]

/-- Settles O55, from what a command can do to a buffer. -/
theorem bufferInvariant : Obligations.BufferInvariant := by
  intro i s legal
  obtain ⟨t, hexec, heffect⟩ := exec_effect i s
  exact ⟨t, hexec, effect_legalBuffers heffect legal⟩

end

section
/-! The statements about the multiplexer (R180 to R189): what SHOW and TICK write, which digit they leave lit, what stands on
the lines between their writes, and how TICKs rotate the display. -/

namespace Sys2Proof

/-! ## Going round the positions (R25) -/

theorem Position.index_injective : Function.Injective Position.index := fun p q h => by
  rw [← Position.ofIndex_index p, h, Position.ofIndex_index]

theorem Position.index_iterate_next (k : Nat) (p : Position) : (Position.next^[k] p).index = (p.index + k) % 4 := by
  induction k with
  | zero => exact (Nat.mod_eq_of_lt p.index_lt).symm
  | succ k ih => rw [Function.iterate_succ_apply', Position.index_next, ih, Nat.mod_add_mod, Nat.add_assoc]

/-- Every position comes within four successors of any other. -/
theorem Position.exists_iterate_next (p q : Position) : ∃ j < 4, Position.next^[j + 1] p = q := by
  have hp := p.index_lt
  have hq := q.index_lt
  refine ⟨(q.index + 3 - p.index) % 4, by omega, Position.index_injective ?_⟩
  rw [Position.index_iterate_next]
  omega

namespace Machine

/-! ## SHOW and TICK as line writes (R180, R182) -/

/-- R180: the thirteen writes, spelled out. -/
theorem showWrites_eq (p : Position) (m : Byte) :
    showWrites p m = [⟨.dig .d1, .low⟩, ⟨.dig .d2, .low⟩, ⟨.dig .d3, .low⟩, ⟨.dig .d4, .low⟩]
      ++ ([Segment.a, .b, .c, .d, .e, .f, .g, .dp].map fun sg =>
        ⟨.seg sg, if m.getLsbD sg.index then .low else .released⟩) ++ [⟨.dig p, .high⟩] := rfl

theorem exec_showPos (a : Byte) (s : State) : exec (.showPos a) s
    = .next (whenPresent (driveAll (showWrites (positionOperand a) (readBuf (positionOperand a) s))) s) := rfl

theorem exec_tick_absent {s : State} (h : s.present = false) : exec .tick s = .next s := by
  simp only [exec, execTick, whenPresent_absent _ h]

/-- R182: a present TICK makes the writes of SHOW in the state with PTR advanced. -/
theorem exec_tick_writes {s : State} (h : s.present = true) :
    ∃ t, exec .tick s = .next t ∧ Writes (showWrites s.ptr.next (readBuf s.ptr.next s)) (advance s) t :=
  ⟨_, exec_tick_present h, driveAll_writes _ _⟩

theorem tickBody_showThenAdvance (s : State) :
    tickBody .showThenAdvance s = advance (driveAll (showWrites s.ptr (readBuf s.ptr s)) s) := rfl

theorem tickBody_advanceThenShow (s : State) :
    tickBody .advanceThenShow s = driveAll (showWrites s.ptr.next (readBuf s.ptr.next s)) (advance s) := rfl

/-- The command shows the position: a SHOW of it, or a TICK that advances PTR to it. -/
def Displays (i : Instr) (s : State) (p : Position) : Prop :=
  (∃ a, i = .showPos a ∧ p.index = a.toNat % 4) ∨ (i = .tick ∧ p = s.ptr.next)

/-- SHOW and TICK do the same to the lines. -/
theorem exec_displays {i : Instr} {s : State} {p : Position} (hp : s.present = true) (h : Displays i s p) :
    ∃ t, exec i s = .next t ∧ t.trace = s.trace ++ showWrites p (readBuf p s)
      ∧ ∀ l, readLatch l t = levelAfter l (readLatch l s) (showWrites p (readBuf p s)) := by
  rcases h with ⟨a, rfl, ha⟩ | ⟨rfl, rfl⟩
  · obtain rfl := eq_positionOperand_iff.2 ha
    obtain ⟨t, hexec, htrace, hlatch, -⟩ := exec_writes (exec_showPos a s) hp
    exact ⟨t, hexec, htrace, hlatch⟩
  · obtain ⟨t, hexec, htrace, hlatch, -⟩ := exec_tick_writes hp
    exact ⟨t, hexec, htrace, by simpa using hlatch⟩

/-! ## The digit shown (R185) -/

/-- The digit line of the position alone is High, and the segment lines hold the pattern of the mask. -/
def ShowsAlone (p : Position) (m : Byte) (t : State) : Prop :=
  (∀ q, readLatch (.dig q) t = if q = p then .high else .low) ∧ ∀ sg, readLatch (.seg sg) t = patternLevel m sg

/-- Whatever the lines held before, SHOW's writes show the digit alone. -/
theorem showsAlone_of_showWrites {p : Position} {m : Byte} {t : State} {before : Line → Level}
    (h : ∀ l, readLatch l t = levelAfter l (before l) (showWrites p m)) : ShowsAlone p m t :=
  ⟨fun q => by rw [h, showWrites_dig], fun sg => by rw [h, showWrites_seg]⟩

/-- R30: where a digit line and a segment line were enabled or disabled, the segment is lit where both were enabled. -/
theorem lighting_of_driven {p : Position} {sg : Segment} {s : State} {digitOn segmentOn : Bool}
    (hd : readLatch (.dig p) s = digitLevel digitOn) (hs : readLatch (.seg sg) s = segmentLevel segmentOn) :
    lighting p sg s = if digitOn = true ∧ segmentOn = true then .lit else .dark := by
  rw [lighting, hd, hs]
  cases digitOn <;> cases segmentOn <;> rfl

theorem ShowsAlone.lighting {p : Position} {m : Byte} {t : State} (h : ShowsAlone p m t) (q : Position) (sg : Segment) :
    lighting q sg t = if q = p ∧ maskBit m sg = true then .lit else .dark := by
  obtain ⟨hdig, hseg⟩ := h
  have hd : readLatch (.dig q) t = digitLevel (decide (q = p)) := by simp [hdig, digitLevel]
  simp only [lighting_of_driven hd (hseg sg), decide_eq_true_iff]

/-! ## The lines after a part of the writes of SHOW (R186) -/

theorem levelAfter_of_unwritten {l : Line} {es : List LineEvent} (h : ∀ e ∈ es, e.line ≠ l) (v : Level) :
    levelAfter l v es = v := by
  induction es generalizing v with
  | nil => rfl
  | cons e es ih =>
    obtain ⟨he, hes⟩ := List.forall_mem_cons.1 h
    rw [levelAfter_cons, if_neg he, ih hes]

/-- A line that is written to one level alone holds it or what it held before. -/
theorem levelAfter_eq_or {l : Line} {x : Level} {es : List LineEvent} (h : ∀ e ∈ es, e.line = l → e.level = x)
    (v : Level) : levelAfter l v es = v ∨ levelAfter l v es = x := by
  induction es generalizing v with
  | nil => exact .inl rfl
  | cons e es ih =>
    obtain ⟨he, hes⟩ := List.forall_mem_cons.1 h
    rw [levelAfter_cons]
    split
    next hline => rw [he hline, or_self_iff.1 (ih hes x)]; exact .inr rfl
    next => exact ih hes v

theorem digitsOffWrites_event {e : LineEvent} (h : e ∈ digitsOffWrites) : ∃ q, e = ⟨.dig q, .low⟩ := by
  obtain ⟨q, -, rfl⟩ := List.mem_map.1 h
  exact ⟨q, rfl⟩

theorem maskWrites_event {m : Byte} {e : LineEvent} (h : e ∈ maskWrites m) : ∃ sg, e = ⟨.seg sg, patternLevel m sg⟩ := by
  obtain ⟨sg, -, rfl⟩ := List.mem_map.1 h
  exact ⟨sg, rfl⟩

section ShowPrefix

variable (p : Position) (m : Byte) {k : Nat} (v : Level)

/-- R186 (1): the first four writes leave the segment lines as they were. -/
theorem levelAfter_seg_showWrites_take (hk : k ≤ 4) (sg : Segment) :
    levelAfter (.seg sg) v ((showWrites p m).take k) = v := by
  rw [showWrites, List.append_assoc, List.take_append_of_le_length (by simpa using hk)]
  refine levelAfter_of_unwritten (fun e he => ?_) v
  obtain ⟨q, rfl⟩ := digitsOffWrites_event (List.mem_of_mem_take he)
  simp

/-- R186 (2): from the fourth write to the twelfth every digit line is Low. -/
theorem levelAfter_dig_showWrites_take (hmin : 4 ≤ k) (hmax : k ≤ 12) (q : Position) :
    levelAfter (.dig q) v ((showWrites p m).take k) = .low := by
  have htake : (showWrites p m).take k = digitsOffWrites ++ (maskWrites m).take (k - 4) := by
    rw [showWrites, List.take_append_of_le_length (by simpa using hmax), List.take_append,
      List.take_of_length_le (by simpa using hmin), digitsOffWrites_length]
  rw [htake, levelAfter_append, digitsOffWrites_dig]
  refine levelAfter_of_unwritten (fun e he => ?_) _
  obtain ⟨sg, rfl⟩ := maskWrites_event (List.mem_of_mem_take he)
  simp

/-- R186 (3): from the twelfth write on the segment lines hold the mask. -/
theorem levelAfter_seg_showWrites_take_mask (hk : 12 ≤ k) (sg : Segment) :
    levelAfter (.seg sg) v ((showWrites p m).take k) = patternLevel m sg := by
  have htake : (showWrites p m).take k
      = (digitsOffWrites ++ maskWrites m) ++ [⟨.dig p, digitLevel true⟩].take (k - 12) := by
    rw [showWrites, List.take_append, List.take_of_length_le (by simpa using hk)]; rfl
  rw [htake, levelAfter_append, levelAfter_append, maskWrites_seg]
  refine levelAfter_of_unwritten (fun e he => ?_) _
  obtain rfl := List.mem_singleton.1 (List.mem_of_mem_take he)
  simp

/-- The first twelve writes do no more to a digit line than to disable it. -/
theorem levelAfter_dig_showWrites_take_eq_or (hk : k ≤ 12) (q : Position) :
    levelAfter (.dig q) v ((showWrites p m).take k) = v ∨ levelAfter (.dig q) v ((showWrites p m).take k) = .low := by
  rw [showWrites, List.take_append_of_le_length (by simpa using hk)]
  refine levelAfter_eq_or (fun e he hline => ?_) v
  rcases List.mem_append.1 (List.mem_of_mem_take he) with he | he
  · obtain ⟨_, rfl⟩ := digitsOffWrites_event he; rfl
  · obtain ⟨sg, rfl⟩ := maskWrites_event he; cases hline

end ShowPrefix

/-! ## What holds at every point of a sequence of line writes (R59, R189) -/

/-- The levels of the lines after a sequence of line writes that they entered at `level`. -/
def levelsAfter (level : Line → Level) (es : List LineEvent) (l : Line) : Level := levelAfter l (level l) es

/-- The levels have the property after every part of the sequence, before its first write and after its last. -/
def AtEveryPoint (P : (Line → Level) → Prop) (level : Line → Level) (es : List LineEvent) : Prop :=
  ∀ k ≤ es.length, P (levelsAfter level (es.take k))

theorem levelsAfter_append (level : Line → Level) (es fs : List LineEvent) :
    levelsAfter level (es ++ fs) = levelsAfter (levelsAfter level es) fs :=
  funext fun l => levelAfter_append l (level l) es fs

section AtEveryPoint

variable {P : (Line → Level) → Prop} {level : Line → Level} {es fs : List LineEvent}

theorem AtEveryPoint.nil (h : P level) : AtEveryPoint P level [] := fun k _ => by rw [List.take_nil]; exact h

theorem AtEveryPoint.atEnd (h : AtEveryPoint P level es) : P (levelsAfter level es) := by
  simpa using h es.length le_rfl

theorem AtEveryPoint.append (h : AtEveryPoint P level es) (h' : AtEveryPoint P (levelsAfter level es) fs) :
    AtEveryPoint P level (es ++ fs) := by
  intro k hk
  rcases le_total k es.length with hes | hes
  · rw [List.take_append_of_le_length hes]
    exact h k hes
  · rw [List.take_append, List.take_of_length_le hes, levelsAfter_append]
    exact h' _ (by rw [List.length_append] at hk; omega)

end AtEveryPoint

/-- No digit line is UNSPEC: `DigitsKnown` of levels instead of a state. -/
def NoDigitUnspec (level : Line → Level) : Prop := ∀ p, level (.dig p) ≠ .unspec

theorem levelsAfter_showWrites_dig (level : Line → Level) (p q : Position) (m : Byte) :
    levelsAfter level (showWrites p m) (.dig q) = if q = p then .high else .low := showWrites_dig p q m _

/-- After SHOW no digit line is UNSPEC, whatever it was before. -/
theorem noDigitUnspec_showWrites (level : Line → Level) (p : Position) (m : Byte) :
    NoDigitUnspec (levelsAfter level (showWrites p m)) := by
  intro q
  rw [levelsAfter_showWrites_dig]
  split <;> decide

theorem atMostOneDigitHigh_showWrites (level : Line → Level) (p : Position) (m : Byte) :
    AtMostOneDigitHigh (levelsAfter level (showWrites p m)) := by
  have only (q : Position) (h : levelsAfter level (showWrites p m) (.dig q) = .high) : q = p := by
    by_contra hne
    rw [levelsAfter_showWrites_dig, if_neg hne] at h
    cases h
  exact fun q r hq hr => (only q hq).trans (only r hr).symm

/-- A property of the digit lines that disabling some of them keeps and SHOW restores holds all along SHOW's writes. -/
theorem atEveryPoint_showWrites {P : (Line → Level) → Prop}
    (disabling : ∀ level level' : Line → Level, P level →
      (∀ q, level' (.dig q) = level (.dig q) ∨ level' (.dig q) = .low) → P level')
    (shown : ∀ level p m, P (levelsAfter level (showWrites p m))) {level : Line → Level} (h : P level)
    (p : Position) (m : Byte) : AtEveryPoint P level (showWrites p m) := by
  intro k hk
  rcases Nat.lt_or_ge 12 k with hlast | hbefore
  · rw [List.take_of_length_le (by rw [showWrites_length]; omega)]
    exact shown level p m
  · exact disabling level _ h fun q => levelAfter_dig_showWrites_take_eq_or p m _ hbefore q

theorem atMostOneDigitHigh_of_disabling (level level' : Line → Level) (h : AtMostOneDigitHigh level)
    (hlow : ∀ q, level' (.dig q) = level (.dig q) ∨ level' (.dig q) = .low) : AtMostOneDigitHigh level' := by
  have was (q : Position) (hq : level' (.dig q) = .high) : level (.dig q) = .high := by
    rcases hlow q with hsame | hdisabled
    · rw [← hsame, hq]
    · rw [hdisabled] at hq; cases hq
  exact fun p q hp hq => h p q (was p hp) (was q hq)

theorem noDigitUnspec_of_disabling (level level' : Line → Level) (h : NoDigitUnspec level)
    (hlow : ∀ q, level' (.dig q) = level (.dig q) ∨ level' (.dig q) = .low) : NoDigitUnspec level' := by
  intro q
  rcases hlow q with hsame | hdisabled
  · rw [hsame]; exact h q
  · rw [hdisabled]; decide

/-- The writes of one SHOW after another, each of a position and a mask. -/
def showsWrites (ds : List (Position × Byte)) : List LineEvent := ds.flatMap fun d => showWrites d.1 d.2

@[simp] theorem showsWrites_nil : showsWrites [] = [] := rfl

theorem showsWrites_append (ds ds' : List (Position × Byte)) :
    showsWrites (ds ++ ds') = showsWrites ds ++ showsWrites ds' := List.flatMap_append

theorem atEveryPoint_showsWrites {P : (Line → Level) → Prop}
    (hshow : ∀ level, P level → ∀ p m, AtEveryPoint P level (showWrites p m)) {level : Line → Level} (h : P level)
    (ds : List (Position × Byte)) : AtEveryPoint P level (showsWrites ds) := by
  induction ds generalizing level with
  | nil => exact .nil h
  | cons d ds ih =>
    have first := hshow level h d.1 d.2
    exact first.append (ih first.atEnd)

theorem atMostOneDigitHigh_showsWrites {level : Line → Level} (h : AtMostOneDigitHigh level)
    (ds : List (Position × Byte)) : AtEveryPoint AtMostOneDigitHigh level (showsWrites ds) :=
  atEveryPoint_showsWrites (fun _ => atEveryPoint_showWrites atMostOneDigitHigh_of_disabling
    atMostOneDigitHigh_showWrites) h ds

theorem noDigitUnspec_showsWrites {level : Line → Level} (h : NoDigitUnspec level) (ds : List (Position × Byte)) :
    AtEveryPoint NoDigitUnspec level (showsWrites ds) :=
  atEveryPoint_showsWrites (fun _ => atEveryPoint_showWrites noDigitUnspec_of_disabling noDigitUnspec_showWrites) h ds

/-- After at least one SHOW no digit line is UNSPEC. -/
theorem noDigitUnspec_after_showsWrites (level : Line → Level) {ds : List (Position × Byte)} (hds : ds ≠ []) :
    NoDigitUnspec (levelsAfter level (showsWrites ds)) := by
  cases ds with
  | nil => exact absurd rfl hds
  | cons d ds =>
    have hfirst := noDigitUnspec_showWrites level d.1 d.2
    have hrest := (noDigitUnspec_showsWrites hfirst ds).atEnd
    rwa [← levelsAfter_append] at hrest

/-! ## Lists of commands -/

theorem runCommands_cons {i : Instr} {s t : State} (is : List Instr) (h : exec i s = .next t) :
    runCommands (i :: is) s = runCommands is t := by
  rw [runCommands, h]

/-- R155, R189: TICK is the only one of the four that writes lines, and it makes the writes of one SHOW. -/
theorem exec_of_tick_or_lineless {i : Instr} (s : State)
    (hi : i = .tick ∨ (∃ v b, i = .setnum v b) ∨ (∃ a, i = .setdp a) ∨ ∃ a, i = .enc a) :
    ∃ t ds, exec i s = .next t ∧ t.trace = s.trace ++ showsWrites ds
      ∧ (∀ l, readLatch l t = levelAfter l (readLatch l s) (showsWrites ds))
      ∧ t.present = s.present ∧ (s.present = true → i = .tick → ds ≠ []) := by
  have notInit : i ≠ .init := by rintro rfl; simp at hi
  obtain ⟨t, hexec, heffect⟩ := exec_effect i s
  have hpresent : t.present = s.present := by simp [effect_present heffect, notInit]
  rcases hi with rfl | hlineless
  · cases hp : s.present
    · exact ⟨s, [], exec_tick_absent hp, by simp, by simp, hp, nofun⟩
    · obtain ⟨u, hexec', htrace, hlatch⟩ := exec_displays hp (.inr ⟨rfl, rfl⟩)
      obtain rfl : t = u := by simpa [hexec] using hexec'
      exact ⟨t, [(s.ptr.next, readBuf s.ptr.next s)], hexec, by simpa [showsWrites] using htrace,
        by simpa [showsWrites] using hlatch, hpresent.trans hp, fun _ _ => by simp⟩
  · obtain ⟨hlatch, htrace⟩ := effect_sameLines heffect hlineless
    have notTick : i ≠ .tick := by rintro rfl; simp at hlineless
    exact ⟨t, [], hexec, by simpa using htrace, by simpa using hlatch, hpresent, fun _ h => absurd h notTick⟩

/-- R189: where TICK is the only command that writes lines, the line writes are those of one SHOW after another. -/
theorem runCommands_showsWrites (cs : List Instr) (s : State)
    (hcs : ∀ i ∈ cs, i = .tick ∨ (∃ v b, i = .setnum v b) ∨ (∃ a, i = .setdp a) ∨ ∃ a, i = .enc a) :
    ∃ t ds, runCommands cs s = .next t ∧ t.trace = s.trace ++ showsWrites ds
      ∧ (∀ l, readLatch l t = levelAfter l (readLatch l s) (showsWrites ds))
      ∧ (s.present = true → .tick ∈ cs → ds ≠ []) := by
  induction cs generalizing s with
  | nil => exact ⟨s, [], rfl, by simp, by simp, nofun⟩
  | cons i is ih =>
    obtain ⟨hi, his⟩ := List.forall_mem_cons.1 hcs
    obtain ⟨u, ds, hexec, htrace, hlatch, hpresent, htick⟩ := exec_of_tick_or_lineless s hi
    obtain ⟨t, ds', hrun, htrace', hlatch', htick'⟩ := ih u his
    refine ⟨t, ds ++ ds', (runCommands_cons is hexec).trans hrun, ?_, fun l => ?_, fun hp hmem hnil => ?_⟩
    · rw [htrace', htrace, showsWrites_append, List.append_assoc]
    · rw [hlatch', hlatch, showsWrites_append, levelAfter_append]
    · obtain ⟨hds, hds'⟩ := List.append_eq_nil_iff.1 hnil
      rcases List.mem_cons.1 hmem with h | h
      · exact htick hp h.symm hds
      · exact htick' (hpresent.trans hp) h hds'

/-! ## TICKs rotate the display (R187) -/

/-- A present TICK advances PTR, keeps the buffers, and shows what PTR then names. -/
theorem exec_tick_shows {s : State} (h : s.present = true) :
    ∃ t, exec .tick s = .next t ∧ t.ptr = s.ptr.next ∧ t.present = true ∧ SameBuffers s t
      ∧ t.trace.length = s.trace.length + 13 ∧ SameStatus s t ∧ ShowsAlone t.ptr (readBuf t.ptr s) t := by
  obtain ⟨t, hexec, htrace, hlatch, ⟨hpresent, hptr, hbuf⟩, hstatus⟩ := exec_tick_writes h
  rw [advance_ptr] at hptr
  refine ⟨t, hexec, hptr, hpresent.trans h, hbuf, by simp [htrace], hstatus, ?_⟩
  rw [hptr]
  exact showsAlone_of_showWrites hlatch

/-- What is no INIT leaves PTR alone but for TICK, which advances it. -/
theorem exec_ptr_of_present {i : Instr} {s : State} (hp : s.present = true) (hwf : i.wf = true) (notInit : i ≠ .init) :
    ∃ t, exec i s = .next t ∧ t.present = true ∧ t.fault = s.fault
      ∧ t.ptr = Position.next^[if i == .tick then 1 else 0] s.ptr := by
  obtain ⟨t, hexec, heffect⟩ := exec_effect i s
  refine ⟨t, hexec, by simp [effect_present heffect, hp], effect_fault heffect hwf (fun h => notInit h.1), ?_⟩
  by_cases htick : i = .tick
  · subst htick
    obtain ⟨u, hexec', hptr, -⟩ := exec_tick_shows hp
    obtain rfl : t = u := by simpa [hexec] using hexec'
    simpa using hptr
  · simpa [htick] using effect_ptr heffect htick (fun h => notInit h.1)

/-- A list of commands without INIT advances PTR once for each TICK in it. -/
theorem runCommands_ptr {cs : List Instr} {s : State} (hp : s.present = true)
    (hcs : ∀ i ∈ cs, i.wf = true ∧ i ≠ .init) :
    ∃ t, runCommands cs s = .next t ∧ t.present = true ∧ t.fault = s.fault
      ∧ t.ptr = Position.next^[cs.count .tick] s.ptr := by
  induction cs generalizing s with
  | nil => exact ⟨s, rfl, hp, rfl, rfl⟩
  | cons i is ih =>
    obtain ⟨⟨hwf, notInit⟩, his⟩ := List.forall_mem_cons.1 hcs
    obtain ⟨u, hexec, hpresent, hfault, hptr⟩ := exec_ptr_of_present hp hwf notInit
    obtain ⟨t, hrun, hpresent', hfault', hptr'⟩ := ih hpresent his
    refine ⟨t, (runCommands_cons is hexec).trans hrun, hpresent', hfault'.trans hfault, ?_⟩
    rw [hptr', hptr, List.count_cons, Function.iterate_add_apply]

/-- A list of commands without INIT and a TICK after it: PTR goes on by one, and the digit it names is shown. -/
theorem runCommands_then_tick {cs : List Instr} {s : State} (hp : s.present = true)
    (hcs : ∀ i ∈ cs, i.wf = true ∧ i ≠ .init) :
    ∃ t u, runCommands cs s = .next t ∧ t.present = true ∧ t.fault = s.fault
      ∧ t.ptr.index = (s.ptr.index + cs.count .tick) % 4
      ∧ runCommands (cs ++ [.tick]) s = .next u ∧ SameBuffers t u
      ∧ u.ptr.index = (s.ptr.index + (cs.count .tick + 1)) % 4 ∧ ShowsAlone u.ptr (readBuf u.ptr t) u := by
  obtain ⟨t, hrun, hpresent, hfault, hptr⟩ := runCommands_ptr hp hcs
  obtain ⟨u, hexec, hptr', -, hbuf, -, -, hshown⟩ := exec_tick_shows hpresent
  have hrun' : runCommands (cs ++ [.tick]) s = .next u := by
    rw [runCommands_append _ hrun, runCommands_cons _ hexec, runCommands]
  refine ⟨t, u, hrun, hpresent, hfault, ?_, hrun', hbuf, ?_, hshown⟩
  · rw [hptr, Position.index_iterate_next]
  · rw [hptr', hptr, ← Function.iterate_succ_apply' Position.next, Position.index_iterate_next]

/-- R187: what `k` present TICKs in a row leave. -/
theorem runCommands_ticks {s : State} (hp : s.present = true) (k : Nat) :
    ∃ t, runCommands (List.replicate k .tick) s = .next t ∧ t.ptr = Position.next^[k] s.ptr
      ∧ t.trace.length = s.trace.length + 13 * k ∧ t.present = true ∧ SameBuffers s t
      ∧ (0 < k → ShowsAlone t.ptr (readBuf t.ptr s) t) := by
  induction k with
  | zero => exact ⟨s, rfl, rfl, rfl, hp, fun _ => rfl, nofun⟩
  | succ k ih =>
    obtain ⟨t, hrun, hptr, hlength, hpresent, hbuf, -⟩ := ih
    obtain ⟨u, hexec, hptr', hpresent', hbuf', hlength', -, hshown⟩ := exec_tick_shows hpresent
    refine ⟨u, ?_, ?_, by omega, hpresent', fun p => (hbuf' p).trans (hbuf p), fun _ => ?_⟩
    · rw [List.replicate_succ', runCommands_append _ hrun, runCommands_cons _ hexec, runCommands]
    · rw [hptr', hptr, Function.iterate_succ_apply']
    · rwa [← hbuf]

/-! ## The trigger's ticks (R188, R243) -/

/-- A state whose schedule fires before the next `k` steps and during none of them. -/
structure Ticking (k : Nat) (rest : List Slot) (s : State) : Prop where
  running : Running s
  present : s.present = true
  notPending : s.tickPending = false
  firings : s.firings = ticksThen k rest

/-- A firing before a step makes it one TICK. -/
theorem step_of_ticking {k : Nat} {rest : List Slot} {s : State} (h : Ticking (k + 1) rest s) :
    ∃ t, step s = .next t ∧ Ticking k rest t ∧ t.ptr = s.ptr.next ∧ SameBuffers s t
      ∧ ShowsAlone t.ptr (readBuf t.ptr s) t := by
  have hslot : nextSlot s = ⟨true, false⟩ := by rw [nextSlot, h.firings]; rfl
  obtain ⟨u, hexec, hptr, hpresent, hbuf, -, hstatus, hdig, hseg⟩ :=
    exec_tick_shows (s := enterTick (dropSlot s)) h.present
  obtain ⟨hfault, -, hpending, -, -, -, hfirings, -⟩ := hstatus
  refine ⟨holdFiring false (returnFromTick u), ?_, ⟨hfault.trans h.running, hpresent, ?_, ?_⟩, hptr, hbuf, ?_, ?_⟩
  · rw [step_of_tickDue h.running (by simp [tickDue, hslot]), hexec, hslot]; rfl
  · simpa using hpending
  · change u.firings = _
    rw [hfirings, enterTick_firings, dropSlot_firings, h.firings]; rfl
  · exact fun q => by rw [readLatch_holdFiring, readLatch_returnFromTick]; exact hdig q
  · exact fun sg => by rw [readLatch_holdFiring, readLatch_returnFromTick]; exact hseg sg

/-- R188: the last of `j + 1` ticks shows the position that many after PTR, from its buffer as it was at the start. -/
theorem run_of_ticking {j k : Nat} {rest : List Slot} {s : State} (hj : j < k) (h : Ticking k rest s) :
    ∃ t, Host.Core.run Sys2Proof.core (j + 1) s = .next t
      ∧ ShowsAlone (Position.next^[j + 1] s.ptr) (readBuf (Position.next^[j + 1] s.ptr) s) t := by
  induction j generalizing k s with
  | zero =>
    obtain ⟨k, rfl⟩ := Nat.exists_eq_add_one_of_ne_zero hj.ne'
    obtain ⟨t, hstep, -, hptr, -, hshown⟩ := step_of_ticking h
    exact ⟨t, core_run_next 0 hstep, by rwa [hptr] at hshown⟩
  | succ j ih =>
    obtain ⟨k, rfl⟩ := Nat.exists_eq_add_one_of_ne_zero (Nat.ne_zero_of_lt hj)
    obtain ⟨u, hstep, hticking, hptr, hbuf, -⟩ := step_of_ticking h
    obtain ⟨t, hrun, hshown⟩ := ih (Nat.lt_of_succ_lt_succ hj) hticking
    rw [hptr, hbuf] at hshown
    exact ⟨t, (core_run_next _ hstep).trans hrun, hshown⟩

end Machine

end Sys2Proof

open Sys2Proof Sys2Proof.Machine

/-- Settles O30: SHOW is its thirteen writes. -/
theorem showRule : Obligations.ShowRule := by
  refine ⟨spelledA_of_format (o := .showPos) (fun _ => rfl) (fun _ _ => rfl) (fun _ _ _ => rfl),
    fun a s p hpos => ⟨fun hp => ?_, exec_of_absent (exec_showPos a s)⟩⟩
  obtain rfl := eq_positionOperand_iff.2 hpos
  rw [← showWrites_eq]
  exact exec_writes (exec_showPos a s) hp

/-- Settles O31: TICK makes the writes of SHOW after advancing PTR. -/
theorem tickRule : Obligations.TickRule := by
  refine ⟨spelledN_of_format (o := .tick) rfl (fun _ _ _ => rfl), fun s => ⟨fun hp => ?_, exec_tick_absent⟩⟩
  obtain ⟨t, hexec, htrace, hlatch, ⟨hpresent, hptr, hbuf⟩, hstatus⟩ := exec_tick_writes hp
  rw [advance_ptr] at hptr
  refine ⟨t, _, hexec, hptr, hpresent, hbuf, ?_, htrace, by simpa using hlatch, hstatus⟩
  rw [hptr, showWrites_eq]

/-- Settles O32, from what SHOW's writes leave on the lines. -/
theorem shownDigitAlone : Obligations.ShownDigitAlone := by
  intro i s p hp hi
  obtain ⟨t, hexec, -, hlatch⟩ := exec_displays hp hi
  have hshown := showsAlone_of_showWrites hlatch
  have ⟨hdig, hseg⟩ := hshown
  exact ⟨t, hexec, (hdig p).trans (if_pos rfl), fun q hq => (hdig q).trans (if_neg hq), hseg, hshown.lighting⟩

/-- Settles O33: before the fifth write the old pattern is on the lines, until the thirteenth no digit is High, and that one
enables the shown digit alone. -/
theorem showIsGlitchFree : Obligations.ShowIsGlitchFree := by
  intro i s p hp hi
  obtain ⟨t, hexec, htrace, -⟩ := exec_displays hp hi
  refine ⟨t, _, hexec, htrace, showWrites_length _ _, fun k hk => ?_⟩
  have hold (h : k ≤ 4) := fun sg => levelAfter_seg_showWrites_take p (readBuf p s) (readLatch (.seg sg) s) h sg
  have hlow (h4 : 4 ≤ k) (h12 : k ≤ 12) :=
    fun q => levelAfter_dig_showWrites_take p (readBuf p s) (readLatch (.dig q) s) h4 h12 q
  have hnew (h : 12 ≤ k) :=
    fun sg => levelAfter_seg_showWrites_take_mask p (readBuf p s) (readLatch (.seg sg) s) h sg
  refine ⟨hold, hlow, hnew, fun q hhigh => ?_⟩
  rcases (by omega : k ≤ 4 ∨ (4 ≤ k ∧ k ≤ 12) ∨ k = 13) with h | ⟨h4, h12⟩ | rfl
  · exact .inl (hold h)
  · rw [hlow h4 h12] at hhigh; cases hhigh
  · refine .inr ⟨?_, hnew (by decide)⟩
    by_contra hne
    rw [List.take_of_length_le (showWrites_length _ _).le, showWrites_dig, if_neg hne] at hhigh
    cases hhigh

/-- Settles O34: the line writes are those of one SHOW after another, along which both properties hold. -/
theorem ticksKeepOneDigitHigh : Obligations.TicksKeepOneDigitHigh := by
  intro cs s hcs hone
  obtain ⟨t, ds, hrun, htrace, hlatch, htick⟩ := runCommands_showsWrites cs s hcs
  refine ⟨t, showsWrites ds, hrun, htrace, hlatch, atMostOneDigitHigh_showsWrites hone ds,
    fun hknown => noDigitUnspec_showsWrites (level := fun l => readLatch l s) hknown ds, fun hp hmem p => ?_⟩
  rw [hlatch]
  exact noDigitUnspec_after_showsWrites (fun l => readLatch l s) (htick hp hmem) p

/-- Settles O35: each TICK takes PTR to its successor, no other command but INIT moves it, and the last TICK shows. -/
theorem ticksRotateTheDisplay : Obligations.TicksRotateTheDisplay := by
  refine ⟨fun k s hp => ?_, fun cs s hp hcs => ?_, fun cs s hp hcs => ?_⟩
  · obtain ⟨t, hrun, hptr, hlength, hpresent, hbuf, hshown⟩ := runCommands_ticks hp k
    have hindex : t.ptr.index = (s.ptr.index + k) % 4 := by rw [hptr, Position.index_iterate_next]
    refine ⟨t, hrun, hindex, fun hd1 => ?_, hlength, hpresent, hbuf, hshown⟩
    rw [hindex, hd1, Position.index, Nat.zero_add]
  · exact runCommands_then_tick hp hcs
  · obtain ⟨t, u, hrun, -, -, hptr, hrun', -, hptr', hdig, -⟩ := runCommands_then_tick (createShared_present s) hcs
    rw [createShared_ptr, Position.index, Nat.zero_add] at hptr hptr'
    exact ⟨t, u, (runCommands_cons _ (exec_init_absent hp)).trans hrun, hptr,
      (runCommands_cons _ (exec_init_absent hp)).trans hrun', hptr', hdig⟩

/-- Settles O36: within four successors PTR comes to every position. -/
theorem everyDigitShownWithinFourTicks : Obligations.EveryDigitShownWithinFourTicks := by
  intro s rest p hrun hp hpending hfirings
  obtain ⟨j, hj, rfl⟩ := Position.exists_iterate_next s.ptr p
  obtain ⟨t, ht, hdig, hseg⟩ := run_of_ticking hj ⟨hrun, hp, hpending, hfirings⟩
  exact ⟨j + 1, by omega, by omega, t, ht, (hdig _).trans (if_pos rfl), hseg⟩

/-- Settles O38: both orders advance PTR and make the writes of one SHOW. -/
theorem tickOrderVariants : Obligations.TickOrderVariants := by
  refine ⟨rfl, fun s => ?_⟩
  rw [tickBody_showThenAdvance, tickBody_advanceThenShow]
  refine ⟨by simp, by simp, by simp, by simp, fun hd1 => ⟨?_, ?_⟩⟩
  · rw [readLatch_advance, readLatch_driveAll, showWrites_dig, hd1, if_pos rfl]
  · rw [readLatch_driveAll, showWrites_dig, hd1]; rfl

end

section
/-! The statements about the pins (R210 to R216): the one equation of each pin command, that a toggle undoes itself, that no
other command reads a latch, and that the driver commands are sequences of pin commands. -/

namespace Sys2Proof.Machine

/-! ## The pin commands on a line, and beyond the last (R211, R213 to R215) -/

theorem lineOperand_of_number {a : Byte} {l : Line} (h : l.number = a.toNat) : lineOperand a = some l := by
  rw [lineOperand, ← h, Line.ofNumber_number]

theorem onLine_of_number {a : Byte} {l : Line} (h : l.number = a.toNat) (f : Line → State → State) (s : State) :
    onLine a f s = .next (whenPresent (f l) s) := by
  rw [onLine, lineOperand_of_number h]

theorem onLine_illegal {a : Byte} (h : 11 < a.toNat) (f : Line → State → State) (s : State) :
    onLine a f s = .next (raiseFault .lineRange s) := by
  rw [onLine, lineOperand_illegal h]

section OnLine

variable {a : Byte} {l : Line} (h : l.number = a.toNat) (s : State)
include h

theorem exec_pinhi : exec (.pinhi a) s = .next (whenPresent (driveAll [⟨l, setHighLevel l⟩]) s) :=
  onLine_of_number h _ s

theorem exec_pinlo : exec (.pinlo a) s = .next (whenPresent (driveAll [⟨l, .low⟩]) s) := by
  have hlow : setLowLevel l = .low := by cases l <;> rfl
  rw [← hlow]
  exact onLine_of_number h _ s

theorem exec_pintgl :
    exec (.pintgl a) s = .next (whenPresent (driveAll [⟨l, toggledLevel l (readLatch l s)⟩]) s) :=
  onLine_of_number h _ s

end OnLine

/-- R27, R213: set-high releases the lines 0 to 7 and drives the others. -/
theorem setHighLevel_eq (l : Line) : setHighLevel l = if l.number < 8 then .released else .high := by
  cases l with
  | seg sg => exact (if_pos sg.index_lt).symm
  | dig p => exact (if_neg (Nat.not_lt.2 (Nat.le_add_right 8 _))).symm

/-! ## The toggle (R215) -/

theorem toggledLevel_seg (sg : Segment) (v : Level) :
    toggledLevel (.seg sg) v = if v = .low then .released else if v = .released then .low else .unspec := by
  cases v <;> rfl

theorem toggledLevel_dig (p : Position) (v : Level) :
    toggledLevel (.dig p) v = if v = .low then .high else if v = .high then .low else .unspec := by
  cases v <;> rfl

/-- A line has two known levels, and UNSPEC stays UNSPEC: toggling twice restores what a line can hold. -/
theorem toggledLevel_toggledLevel {l : Line} {v : Level} (h : LegalLevel l v) :
    toggledLevel l (toggledLevel l v) = v := by
  cases l with
  | seg sg =>
    cases v with
    | high => exact absurd rfl h
    | low | released | unspec => rfl
  | dig p =>
    cases v with
    | released => exact absurd rfl h
    | low | high | unspec => rfl

theorem exec_pintgl_present {a : Byte} {l : Line} {s : State} (h : l.number = a.toNat) (hp : s.present = true) :
    ∃ t, exec (.pintgl a) s = .next t ∧ t.present = true
      ∧ ∀ k, readLatch k t = if l = k then toggledLevel l (readLatch l s) else readLatch k s := by
  obtain ⟨t, hexec, -, hlatch, ⟨hpresent, -⟩, -⟩ := exec_writes (exec_pintgl h s) hp
  exact ⟨t, hexec, hpresent.trans hp, hlatch⟩

/-- R215: two toggles of a line at a level it can hold restore every latch. -/
theorem runCommands_pintgl_twice {a : Byte} {l : Line} {s : State} (h : l.number = a.toNat) (hp : s.present = true)
    (legal : LegalLevel l (readLatch l s)) :
    ∃ t, runCommands [.pintgl a, .pintgl a] s = .next t ∧ ∀ k, readLatch k t = readLatch k s := by
  obtain ⟨u, hfirst, hpresent, hlatch⟩ := exec_pintgl_present h hp
  obtain ⟨t, hsecond, -, hlatch'⟩ := exec_pintgl_present h hpresent
  refine ⟨t, by rw [runCommands_cons _ hfirst, runCommands_cons _ hsecond, runCommands], fun k => ?_⟩
  by_cases hk : l = k
  · subst hk
    rw [hlatch', if_pos rfl, hlatch, if_pos rfl, toggledLevel_toggledLevel legal]
  · rw [hlatch', if_neg hk, hlatch, if_neg hk]

/-! ## No command but the toggle reads a latch (R215) -/

/-- The states differ in their latches alone: with every latch at UNSPEC they are one. -/
def SameButLatches (s s' : State) : Prop := unspecAll s' = unspecAll s

/-- But for the latches, a line write is its event. -/
theorem unspecAll_drive (l : Line) (v : Level) (s : State) :
    unspecAll (drive l v s) = { unspecAll s with trace := (unspecAll s).trace ++ [⟨l, v⟩] } := by
  cases l <;> rfl

section SameButLatches

variable {s s' : State} (same : SameButLatches s s')
include same

theorem SameButLatches.congr {α : Type} (f : State → α) : f (unspecAll s') = f (unspecAll s) := congrArg f same

theorem SameButLatches.present : s'.present = s.present := same.congr State.present

theorem SameButLatches.ptr : s'.ptr = s.ptr := same.congr State.ptr

theorem SameButLatches.trace : s'.trace = s.trace := same.congr State.trace

theorem SameButLatches.readBuf (p : Position) : readBuf p s' = readBuf p s := same.congr (Machine.readBuf p)

theorem SameButLatches.sameShared : SameShared s s' := ⟨same.present, same.ptr, same.readBuf⟩

theorem SameButLatches.sameStatus : SameStatus s s' :=
  ⟨same.congr State.fault, same.congr State.responses, same.congr State.tickPending, same.congr State.ctx,
    same.congr State.commands, same.congr State.position, same.congr State.firings, same.congr State.faulting⟩

theorem SameButLatches.raiseFault (c : FaultCode) : SameButLatches (raiseFault c s) (raiseFault c s') :=
  same.congr (Machine.raiseFault c)

theorem SameButLatches.drive (l : Line) (v : Level) : SameButLatches (drive l v s) (drive l v s') := by
  rw [SameButLatches, unspecAll_drive, unspecAll_drive, same]

theorem SameButLatches.driveAll (es : List LineEvent) : SameButLatches (driveAll es s) (driveAll es s') := by
  induction es generalizing s s' with
  | nil => exact same
  | cons e es ih => exact ih (same.drive e.line e.level)

theorem SameButLatches.showDigit (p : Position) : SameButLatches (showDigit p s) (showDigit p s') := by
  rw [Machine.showDigit, Machine.showDigit, same.readBuf]
  exact same.driveAll _

theorem SameButLatches.advance : SameButLatches (advance s) (advance s') := same.congr Machine.advance

theorem SameButLatches.tickBody (order : TickOrder) : SameButLatches (tickBody order s) (tickBody order s') := by
  cases order with
  | advanceThenShow =>
    rw [Machine.tickBody, Machine.tickBody, same.advance.ptr]
    exact same.advance.showDigit _
  | showThenAdvance =>
    rw [Machine.tickBody, Machine.tickBody, same.ptr]
    exact (same.showDigit _).advance

theorem SameButLatches.setPoint (p : Position) :
    SameButLatches (writeBuf p (Machine.readBuf p s ||| 0x80#8) s) (writeBuf p (Machine.readBuf p s' ||| 0x80#8) s') :=
  same.congr fun t => writeBuf p (Machine.readBuf p t ||| 0x80#8) t

theorem SameButLatches.whenPresent {f : State → State} (hf : SameButLatches (f s) (f s')) :
    SameButLatches (whenPresent f s) (whenPresent f s') := by
  cases hp : s.present
  · rwa [whenPresent_absent f hp, whenPresent_absent f (same.present.trans hp)]
  · rwa [whenPresent_present f hp, whenPresent_present f (same.present.trans hp)]

theorem SameButLatches.onLine {f : Line → State → State} (hf : ∀ l, SameButLatches (f l s) (f l s')) (a : Byte) :
    ∃ t u, onLine a f s = .next t ∧ onLine a f s' = .next u ∧ SameButLatches t u := by
  unfold Machine.onLine
  cases lineOperand a with
  | none => exact ⟨_, _, rfl, rfl, same.raiseFault _⟩
  | some l => exact ⟨_, _, rfl, rfl, same.whenPresent (hf l)⟩

/-- No command but PINTGL carries a latch to anything but latches. -/
theorem SameButLatches.exec {i : Instr} (notToggle : ∀ a, i ≠ .pintgl a) :
    ∃ t u, exec i s = .next t ∧ exec i s' = .next u ∧ SameButLatches t u := by
  cases i with
  | init =>
    cases hp : s.present
    · exact ⟨_, _, exec_init_absent hp, exec_init_absent (same.present.trans hp), same.congr createShared⟩
    · exact ⟨_, _, exec_init_present hp, exec_init_present (same.present.trans hp), same.raiseFault _⟩
  | setnum v b =>
    simp only [Machine.exec, execSetnum]
    cases baseOperand b with
    | none => exact ⟨_, _, rfl, rfl, same.raiseFault _⟩
    | some base => exact ⟨_, _, rfl, rfl, same.whenPresent (same.congr (writeAllBufs _))⟩
  | setdp a => exact ⟨_, _, rfl, rfl, same.whenPresent (same.setPoint _)⟩
  | showPos a => exact ⟨_, _, rfl, rfl, same.whenPresent (same.showDigit _)⟩
  | tick => exact ⟨_, _, rfl, rfl, same.whenPresent (same.tickBody _)⟩
  | digen | digdis | segen | segdis => exact ⟨_, _, rfl, rfl, same.whenPresent (same.drive _ _)⟩
  | digdisall | segdisall | apply => exact ⟨_, _, rfl, rfl, same.whenPresent (same.driveAll _)⟩
  | encapply a =>
    simp only [Machine.exec, execEncapply]
    cases digitOperand a with
    | none => exact ⟨_, _, rfl, rfl, same.raiseFault _⟩
    | some v => exact ⟨_, _, rfl, rfl, same.whenPresent (same.driveAll _)⟩
  | enc a =>
    simp only [Machine.exec, execEnc]
    cases digitOperand a with
    | none => exact ⟨_, _, rfl, rfl, same.raiseFault _⟩
    | some v => exact ⟨_, _, rfl, rfl, same.congr (respond _)⟩
  | pinhi a | pinlo a => exact same.onLine (fun l => same.drive l _) a
  | pintgl a => exact absurd rfl (notToggle a)

end SameButLatches

/-- A sequence of line writes keeps a line's level, or leaves one that does not depend on it. -/
theorem levelAfter_keeps_or_sets (l : Line) (es : List LineEvent) :
    (∀ v, levelAfter l v es = v) ∨ ∀ v w, levelAfter l v es = levelAfter l w es := by
  induction es with
  | nil => exact .inl fun _ => rfl
  | cons e es ih =>
    by_cases hline : e.line = l
    · exact .inr fun v w => by rw [levelAfter_cons, levelAfter_cons, if_pos hline, if_pos hline]
    · simpa only [levelAfter_cons, if_neg hline] using ih

/-- Executions of one command that append the same events to the same trace leave a latch alike, or both as it was. -/
theorem exec_latch_alike {i : Instr} {s s' t u : State} (h : exec i s = .next t) (h' : exec i s' = .next u)
    (present : s'.present = s.present) (before : s'.trace = s.trace) (after : u.trace = t.trace) (l : Line) :
    readLatch l u = readLatch l t ∨ (readLatch l t = readLatch l s ∧ readLatch l u = readLatch l s') := by
  by_cases hinit : i = .init
  · subst hinit
    cases hp : s.present
    · cases (exec_init_absent hp).symm.trans h
      cases (exec_init_absent (present.trans hp)).symm.trans h'
      exact .inl (by simp)
    · cases (exec_init_present hp).symm.trans h
      cases (exec_init_present (present.trans hp)).symm.trans h'
      exact .inr (by simp)
  · obtain ⟨es, htrace, -, hlatch⟩ := effect_writes (effect_of_exec h)
    obtain ⟨es', htrace', -, hlatch'⟩ := effect_writes (effect_of_exec h')
    obtain rfl : es' = es := by simpa [htrace, htrace', before] using after
    rw [hlatch hinit, hlatch' hinit]
    rcases levelAfter_keeps_or_sets l es' with keeps | sets
    · exact .inr ⟨keeps _, keeps _⟩
    · exact .inl (sets _ _)

/-! ## Sequences of pin commands (R216) -/

/-- Commands of one line write each make their writes one after another. -/
theorem runCommands_writes {α : Type} {f : α → Instr} {e : α → LineEvent}
    (hexec : ∀ x s, exec (f x) s = .next (whenPresent (driveAll [e x]) s)) (xs : List α) (s : State) :
    runCommands (xs.map f) s = .next (whenPresent (driveAll (xs.map e)) s) := by
  induction xs generalizing s with
  | nil => cases hp : s.present <;> simp [runCommands, hp]
  | cons x xs ih =>
    rw [List.map_cons, runCommands_cons _ (hexec x s), ih]
    cases hp : s.present <;> simp [hp]

/-- The number of a line is an operand byte that names it. -/
theorem number_eq_toNat (l : Line) : l.number = (BitVec.ofNat 8 l.number).toNat := by
  rcases l with x | x <;> cases x <;> rfl

/-- R130, R216: the pin command that does to a segment line what a mask does. -/
def maskPin (m : Byte) (k : Nat) : Instr :=
  if m.getLsbD k then .pinlo (BitVec.ofNat 8 k) else .pinhi (BitVec.ofNat 8 k)

theorem exec_maskPin (m : Byte) (sg : Segment) (s : State) :
    exec (maskPin m sg.index) s = .next (whenPresent (driveAll [⟨.seg sg, segmentLevel (maskBit m sg)⟩]) s) := by
  have hnumber := number_eq_toNat (.seg sg)
  cases hbit : m.getLsbD sg.index
  · rw [maskBit, hbit, maskPin, hbit]; exact exec_pinhi hnumber s
  · rw [maskBit, hbit, maskPin, hbit]; exact exec_pinlo hnumber s

theorem exec_apply_eq_pins (m : Byte) (s : State) :
    exec (.apply m) s = runCommands ([0, 1, 2, 3, 4, 5, 6, 7].map (maskPin m)) s :=
  (runCommands_writes (exec_maskPin m) Segment.all s).symm

theorem exec_digdisall_eq_pins (s : State) :
    exec .digdisall s = runCommands ([8#8, 9#8, 10#8, 11#8].map .pinlo) s :=
  (runCommands_writes (fun p => exec_pinlo (number_eq_toNat (.dig p))) Position.all s).symm

theorem number_seg_residue (n : Nat) :
    (Line.seg (Segment.ofIndex (n % 8))).number = (BitVec.ofNat 8 (n % 8)).toNat := by
  rw [Line.number, Segment.index_ofIndex, BitVec.toNat_ofNat]; omega

theorem number_dig_residue (n : Nat) :
    (Line.dig (Position.ofIndex (n % 4))).number = (BitVec.ofNat 8 (8 + n % 4)).toNat := by
  rw [Line.number, Position.index_ofIndex, BitVec.toNat_ofNat]; omega

end Sys2Proof.Machine

open Sys2Proof Sys2Proof.Machine

/-- Settles O26: on a line each command is one write, and beyond the last line a fault. -/
theorem pinSetRules : Obligations.PinSetRules := by
  refine ⟨⟨?_, ?_⟩, fun a s => ⟨fun l hl hp => ⟨?_, ?_⟩, fun legal => ?_, fun illegal => ⟨?_, ?_⟩⟩⟩
  · exact spelledUpTo_of_format (o := .pinhi) (fun _ => rfl) (fun _ _ => rfl) (fun _ _ _ => rfl)
  · exact spelledUpTo_of_format (o := .pinlo) (fun _ => rfl) (fun _ _ => rfl) (fun _ _ _ => rfl)
  · rw [← hl, ← setHighLevel_eq]
    exact exec_writes (exec_pinhi hl s) hp
  · exact exec_writes (exec_pinlo hl s) hp
  · obtain ⟨l, -, hl⟩ := lineOperand_legal legal
    exact ⟨⟨l, hl⟩, fun hp => ⟨exec_of_absent (exec_pinhi hl s) hp, exec_of_absent (exec_pinlo hl s) hp⟩⟩
  · exact ⟨_, onLine_illegal illegal _ s, raiseFault_onlyFaults .lineRange s⟩
  · exact ⟨_, onLine_illegal illegal _ s, raiseFault_onlyFaults .lineRange s⟩

/-- Settles O27: a toggle is one write of the level it reads, toggled; every other command treats states that differ in
their latches alike. -/
theorem pinToggleRule : Obligations.PinToggleRule := by
  refine ⟨spelledUpTo_of_format (o := .pintgl) (fun _ => rfl) (fun _ _ => rfl) (fun _ _ _ => rfl),
    fun a s => ⟨fun sg hsg hp => ?_, fun p hpos hp => ?_, fun l hl hp legal => ?_, fun legal hp => ?_,
      fun illegal => ?_⟩, fun i s so dg notToggle => ?_⟩
  · rw [← toggledLevel_seg sg]
    exact exec_writes (exec_pintgl (l := .seg sg) hsg s) hp
  · rw [← toggledLevel_dig p]
    exact exec_writes (exec_pintgl (l := .dig p) hpos s) hp
  · exact runCommands_pintgl_twice hl hp legal
  · obtain ⟨l, -, hl⟩ := lineOperand_legal legal
    exact exec_of_absent (exec_pintgl hl s) hp
  · exact ⟨_, onLine_illegal illegal _ s, raiseFault_onlyFaults .lineRange s⟩
  · have before : SameButLatches s { s with segOut := so, digOut := dg } := rfl
    obtain ⟨t, u, hexec, hexec', after⟩ := before.exec notToggle
    exact ⟨t, u, hexec, hexec', after.trace, after.sameShared, after.sameStatus,
      exec_latch_alike hexec hexec' before.present before.trace after.trace⟩

/-- Settles O28: a driver command and its pin commands make the same line writes. -/
theorem driverIsPinSequence : Obligations.DriverIsPinSequence := by
  intro s a
  have hdig := number_dig_residue a.toNat
  have hseg := number_seg_residue a.toNat
  refine ⟨?_, ?_, ?_, ?_, exec_digdisall_eq_pins s, ?_, exec_apply_eq_pins a s, fun legal => ?_⟩
  · exact (exec_digen a s).trans (exec_pinhi hdig s).symm
  · exact (exec_digdis a s).trans (exec_pinlo hdig s).symm
  · exact (exec_segen a s).trans (exec_pinlo hseg s).symm
  · exact (exec_segdis a s).trans (exec_pinhi hseg s).symm
  · exact (exec_segdisall s).trans (exec_apply_eq_pins 0x00#8 s)
  · exact (exec_encapply_legal legal s).trans (exec_apply_eq_pins _ s)

end

section
/-! The statements about the absent state, the faults and the trigger's ticks (R230 to R247): what a command does while the
state is absent, which words fault and with which code, that the step after a fault is the halt, and that a due tick runs
before the next word. -/

namespace Sys2Proof

/-! ## The words that are rejected, by their code (R75, R78, R231) -/

theorem FaultCode.code_inj {c c' : FaultCode} : c.code = c'.code ↔ c = c' := by
  cases c <;> cases c' <;> simp [FaultCode.code]

theorem Format.rangeFault_eq_some_iff (f : Format) (a b : Byte) (c : FaultCode) :
    f.rangeFault a b = some c ↔ (f = .s ∧ c = .baseRange ∧ (b.toNat < 2 ∨ 16 < b.toNat))
      ∨ (f = .d ∧ c = .digitRange ∧ 15 < a.toNat) ∨ (f = .l ∧ c = .lineRange ∧ 11 < a.toNat) := by
  cases f with
  | d | l | s => simp [Format.rangeFault, Config.baseMin, Config.baseMax, and_comm, eq_comm]
  | n | p | g | m => simp [Format.rangeFault]

theorem Opcode.opcode_make (o : Opcode) (a b : Byte) (v : Value) : (o.make a b v).opcode = o := by cases o <;> rfl

theorem Opcode.format_eq_s_iff (o : Opcode) : o.format = .s ↔ o = .setnum := by
  cases o <;> simp [Opcode.format]

theorem Opcode.format_eq_d_iff (o : Opcode) : o.format = .d ↔ o = .enc ∨ o = .encapply := by
  cases o <;> simp [Opcode.format]

theorem Opcode.format_eq_l_iff (o : Opcode) : o.format = .l ↔ o = .pinhi ∨ o = .pinlo ∨ o = .pintgl := by
  cases o <;> simp [Opcode.format]

section Reject

variable {w : Word}

/-- R76: of a word with the row's `op`, spelling the row says that the must-be-zero fields are zero. -/
theorem reservedZero_eq_spells {o : Opcode} (hop : opField w = o.byte) : o.format.reservedZero w = o.spells w := by
  rw [Bool.eq_iff_iff, o.spells_iff, and_iff_right hop]

/-- R78: a word is rejected by one of the three checks, having passed those before it. -/
theorem decode_eq_reject_iff {c : FaultCode} :
    decode w = .reject c ↔ (c = .illegalOpcode ∧ ∀ o : Opcode, opField w ≠ o.byte)
      ∨ (c = .reservedNonzero ∧ ∃ o : Opcode, opField w = o.byte ∧ o.spells w = false)
      ∨ ∃ o : Opcode, o.spells w = true ∧ o.format.rangeFault (aField w) (bField w) = some c := by
  constructor
  · intro h
    by_cases hassigned : ∃ o : Opcode, opField w = o.byte
    · obtain ⟨o, hop⟩ := hassigned
      have hzero := reservedZero_eq_spells hop
      cases hspells : o.spells w with
      | false =>
        rw [decode_reserved hop (hzero.trans hspells)] at h
        cases h; exact .inr (.inl ⟨rfl, o, hop, hspells⟩)
      | true =>
        cases hrange : o.format.rangeFault (aField w) (bField w) with
        | none => rw [decode_command hop (hzero.trans hspells) hrange] at h; cases h
        | some c' =>
          rw [decode_range hop (hzero.trans hspells) hrange] at h
          cases h; exact .inr (.inr ⟨o, hspells, hrange⟩)
    · have hop := not_exists.1 hassigned
      rw [decode_unassigned hop] at h
      cases h; exact .inl ⟨rfl, hop⟩
  · rintro (⟨rfl, hop⟩ | ⟨rfl, o, hop, hspells⟩ | ⟨o, hspells, hrange⟩)
    · exact decode_unassigned hop
    · exact decode_reserved hop ((reservedZero_eq_spells hop).trans hspells)
    · obtain ⟨hop, hzero⟩ := (o.spells_iff w).1 hspells
      exact decode_range hop hzero hrange

theorem decode_eq_reject_illegalOpcode_iff :
    decode w = .reject .illegalOpcode ↔ ∀ o : Opcode, opField w ≠ o.byte := by
  simp [decode_eq_reject_iff, Format.rangeFault_eq_some_iff]

theorem decode_eq_reject_reservedNonzero_iff :
    decode w = .reject .reservedNonzero ↔ ∃ o : Opcode, opField w = o.byte ∧ o.spells w = false := by
  simp [decode_eq_reject_iff, Format.rangeFault_eq_some_iff]

theorem decode_eq_reject_baseRange_iff : decode w = .reject .baseRange
    ↔ Opcode.spells .setnum w = true ∧ ((bField w).toNat < 2 ∨ 16 < (bField w).toNat) := by
  simp [decode_eq_reject_iff, Format.rangeFault_eq_some_iff, Opcode.format_eq_s_iff]

theorem decode_eq_reject_digitRange_iff : decode w = .reject .digitRange
    ↔ (Opcode.spells .enc w = true ∨ Opcode.spells .encapply w = true) ∧ 15 < (aField w).toNat := by
  simp [decode_eq_reject_iff, Format.rangeFault_eq_some_iff, Opcode.format_eq_d_iff, ← and_assoc, and_or_left,
    or_and_right, exists_or]

theorem decode_eq_reject_lineRange_iff : decode w = .reject .lineRange
    ↔ (Opcode.spells .pinhi w = true ∨ Opcode.spells .pinlo w = true ∨ Opcode.spells .pintgl w = true)
      ∧ 11 < (aField w).toNat := by
  simp [decode_eq_reject_iff, Format.rangeFault_eq_some_iff, Opcode.format_eq_l_iff, ← and_assoc, and_or_left,
    or_and_right, exists_or]

/-- REINIT is no fault of the decoder. -/
theorem decode_ne_reject_reinit : decode w ≠ .reject .reinit := by
  simp [decode_eq_reject_iff, Format.rangeFault_eq_some_iff]

theorem decode_eq_init_iff : decode w = .instr .init ↔ Opcode.spells .init w = true := by
  rw [Opcode.spells_iff]
  constructor
  · intro h
    obtain ⟨o, hop, hzero, -, hmake⟩ := checks_of_decode h
    obtain rfl : Opcode.init = o := (congrArg Instr.opcode hmake).trans (o.opcode_make _ _ _)
    exact ⟨hop, hzero⟩
  · rintro ⟨hop, hzero⟩
    exact decode_command hop hzero rfl

end Reject

namespace Machine

/-! ## The words that fault (R230, R231) -/

/-- The word faults with the code in this state: it is rejected, or it is an INIT of a present state (R78, R150). -/
def Faults (w : Word) (c : FaultCode) (s : State) : Prop :=
  decode w = .reject c ∨ (decode w = .instr .init ∧ s.present = true ∧ c = .reinit)

theorem runWord_of_faults {w : Word} {c : FaultCode} {s : State} (h : Faults w c s) :
    runWord exec w s = .next (raiseFault c s) := by
  rcases h with hreject | ⟨hinit, hp, rfl⟩
  · exact runWord_reject hreject
  · rw [runWord_instr hinit, exec_init_present hp]

/-- A word answers a next state, in which FAULT holds a code exactly when the word faults with it. -/
theorem runWord_fault {s : State} (hrun : Running s) (w : Word) :
    ∃ t, runWord exec w s = .next t ∧ ∀ c, t.fault = some c ↔ Faults w c s := by
  by_cases hfaults : ∃ c, Faults w c s
  · obtain ⟨c, hc⟩ := hfaults
    refine ⟨_, runWord_of_faults hc, fun c' => ⟨fun h => ?_, fun hc' => ?_⟩⟩
    · cases h; exact hc
    · have hsame := (runWord_of_faults hc).symm.trans (runWord_of_faults hc')
      exact congrArg State.fault (Host.Outcome.next.inj hsame)
  · cases hdecode : decode w with
    | reject c => exact absurd ⟨c, .inl hdecode⟩ hfaults
    | instr i =>
      obtain ⟨-, hwf⟩ := encodeDecodeRoundTrip w i hdecode
      have notReinit : ¬ (i = .init ∧ s.present = true) := by
        rintro ⟨rfl, hp⟩
        exact hfaults ⟨.reinit, .inr ⟨hdecode, hp, rfl⟩⟩
      obtain ⟨t, hexec, hfault⟩ := onlyReinitFaultsAfterDecode i s hwf notReinit
      refine ⟨t, (runWord_instr hdecode s).trans hexec, fun c => ⟨fun h => ?_, fun h => absurd ⟨c, h⟩ hfaults⟩⟩
      rw [hfault, hrun] at h; cases h

theorem faultRegister_le (s : State) : (faultRegister s).toNat ≤ 6 := by
  unfold faultRegister
  cases s.fault with
  | none => decide
  | some c => cases c <;> decide

theorem faultRegister_eq_code_iff {s : State} {c : FaultCode} : faultRegister s = c.code ↔ s.fault = some c := by
  unfold faultRegister
  cases s.fault with
  | none => cases c <;> simp [FaultCode.code]
  | some c' => simp [FaultCode.code_inj]

/-! ## The step of a faulting word, and the halt after it (R230, R232 to R234, R246) -/

theorem step_of_halted {s : State} {c : FaultCode} (h : s.fault = some c) : step s = .fault (.halted c s.faulting) := by
  have hturn : arbitrate s = .halted c := by unfold arbitrate; rw [h]
  rw [step, takeTurn, hturn]

theorem run_of_halted {s : State} {c : FaultCode} (h : s.fault = some c) (k : Nat) :
    Host.Core.run Sys2Proof.core (k + 1) s = .fault (.halted c s.faulting) :=
  core_run_fault k (step_of_halted h)

/-- The state a faulting word leaves: FAULT and its record set, the word taken, a firing during it held. -/
def faultedBy (w : Word) (c : FaultCode) (s : State) : State :=
  endCommand w (nextSlot s).during (raiseFault c (dropCommand (dropSlot s)))

section FaultedBy

variable (w : Word) (c : FaultCode) (s : State)

theorem faultedBy_fault : (faultedBy w c s).fault = some c := rfl

theorem faultedBy_tickPending : (faultedBy w c s).tickPending = (s.tickPending || (nextSlot s).during) := rfl

theorem faultedBy_ctx : (faultedBy w c s).ctx = s.ctx := by simp [faultedBy]

theorem faultedBy_responses : (faultedBy w c s).responses = s.responses := by simp [faultedBy]

theorem faultedBy_sameShared : SameShared s (faultedBy w c s) := by
  simp [SameShared, SameBuffers, faultedBy]

theorem faultedBy_sameLines : SameLines s (faultedBy w c s) := by
  simp [SameLines, faultedBy]

/-- The next step is the halt, which names the word, whatever tick is pending. -/
theorem step_faultedBy :
    step (faultedBy w c s) = .fault (.halted c (some { word := w, position := s.position })) :=
  step_of_halted (faultedBy_fault w c s)

end FaultedBy

theorem step_of_faults {s : State} {w : Word} {rest : List Word} {c : FaultCode} (hrun : Running s)
    (hdue : tickDue s = false) (hword : s.commands = w :: rest) (h : Faults w c s) :
    step s = .next (faultedBy w c s) := by
  rw [step_of_word hrun hdue hword, runWord_of_faults (s := dropCommand (dropSlot s)) h]; rfl

/-! ## The absent state (R240) -/

/-- What a well-formed command can do while the state is absent: nothing, but for INIT and ENC. -/
theorem effect_of_absent {i : Instr} {s t : State} (h : Effect i s t) (hwf : i.wf = true) (hp : s.present = false) :
    (t = s ∧ i ≠ .init ∧ ∀ a, i ≠ .enc a) ∨ (i = .init ∧ t = createShared s)
      ∨ ∃ a, i = .enc a ∧ t = respond (segRom (BitVec.ofNat 4 a.toNat)) s := by
  cases h with
  | noop _ notInit notEnc => exact .inl ⟨rfl, notInit, notEnc⟩
  | create _ => exact .inr (.inl ⟨rfl, rfl⟩)
  | encode v operand =>
    rw [digitOperand_legal (Nat.le_of_lt_succ (of_decide_eq_true hwf))] at operand
    cases operand; exact .inr (.inr ⟨_, rfl, rfl⟩)
  | fault c why => simp [hwf, hp] at why
  | number present | point present | lines present | tick present => rw [hp] at present; cases present

/-! ## A due tick (R241, R243, R244, R247) -/

/-- The trigger's inputs, the command stream and the fault record are no command's to write. -/
theorem effect_sameInputs {i : Instr} {s t : State} (h : Effect i s t) : SameInputs s t := by
  cases h with
  | lines => exact driveAll_sameInputs _ _
  | tick => exact driveAll_sameInputs _ (advance _)
  | _ => exact ⟨rfl, rfl, rfl, rfl, rfl, rfl⟩

/-- No command sees that the tick context is entered and the schedule moves on. -/
theorem hidden_enterTick_dropSlot : Hidden fun s => enterTick (dropSlot s) where
  present _ := rfl
  readBuf _ _ := rfl
  readLatch l _ := by cases l <;> rfl
  writeBuf _ _ _ := rfl
  writeAllBufs _ _ := rfl
  drive l _ _ := by cases l <;> rfl
  respond _ _ := rfl
  raiseFault _ _ := rfl
  ptr _ := rfl
  advance _ := rfl
  createShared _ := rfl

end Machine

end Sys2Proof

open Sys2Proof Sys2Proof.Machine

/-- Settles O39, from what a well-formed command can do while the state is absent. -/
theorem absentStatePolicy : Obligations.AbsentStatePolicy := by
  intro i s hwf hp
  obtain ⟨t, hexec, heffect⟩ := exec_effect i s
  refine ⟨t, hexec, ?_⟩
  rcases effect_of_absent heffect hwf hp with ⟨rfl, notInit, notEnc⟩ | ⟨rfl, rfl⟩ | ⟨a, rfl, rfl⟩
  · exact ⟨rfl, rfl, fun _ _ => rfl, fun a ha => absurd ha (notEnc a), fun hi => absurd hi notInit⟩
  · exact ⟨rfl, rfl, fun h => absurd rfl h, nofun, fun _ => rfl⟩
  · exact ⟨rfl, rfl, fun _ notEnc => absurd rfl (notEnc a), by rintro _ ⟨⟩; rfl, nofun⟩

/-- Settles O41: a code stands in FAULT exactly when the word faults with it, and each check of the decoder says which
words those are. -/
theorem faultCodesAndCauses : Obligations.FaultCodesAndCauses := by
  intro s w hrun
  obtain ⟨t, hword, hfault⟩ := runWord_fault hrun w
  have register (c : FaultCode) : faultRegister t = c.code ↔ Faults w c s :=
    faultRegister_eq_code_iff.trans (hfault c)
  have rejected (c : FaultCode) (hc : c ≠ .reinit) : faultRegister t = c.code ↔ decode w = .reject c :=
    (register c).trans (by simp [Faults, hc])
  refine ⟨t, hword, faultRegister_le t, ?_, ?_, ?_, ?_, ?_, ?_⟩
  · exact (rejected .illegalOpcode (by decide)).trans decode_eq_reject_illegalOpcode_iff
  · exact (rejected .reservedNonzero (by decide)).trans decode_eq_reject_reservedNonzero_iff
  · exact (rejected .baseRange (by decide)).trans decode_eq_reject_baseRange_iff
  · exact (rejected .digitRange (by decide)).trans decode_eq_reject_digitRange_iff
  · exact (rejected .lineRange (by decide)).trans decode_eq_reject_lineRange_iff
  · exact (register .reinit).trans (by simp [Faults, decode_ne_reject_reinit, decode_eq_init_iff])

/-- Settles O42, from the state a faulting word leaves. -/
theorem faultIsPrecise : Obligations.FaultIsPrecise := by
  intro s w rest c hrun hdue hword hfaults
  exact ⟨_, step_of_faults hrun hdue hword hfaults, rfl, rfl, faultedBy_sameShared w c s, faultedBy_sameLines w c s,
    faultedBy_responses w c s, faultedBy_ctx w c s⟩

/-- Settles O43: with no tick due none is pending, so a firing during the word alone is held; and a halt comes before it. -/
theorem faultHaltsBeforePendingTick : Obligations.FaultHaltsBeforePendingTick := by
  intro s w rest c hrun hdue hword hfaults
  obtain ⟨hpending, -⟩ := Bool.or_eq_false_iff.1 hdue
  refine ⟨_, step_of_faults hrun hdue hword hfaults, ?_, step_faultedBy w c s⟩
  rw [faultedBy_tickPending, hpending, Bool.false_or]

/-- Settles O44: the first step of a run from a halted state is the halt. -/
theorem haltIsForEver : Obligations.HaltIsForEver := by
  refine ⟨fun s c hfault k => ⟨_, run_of_halted hfault k⟩, fun s t hstep => ?_,
    fun s w rest c hrun hdue hword hfaults => ?_⟩
  · obtain ⟨hrun, -⟩ := step_cases hstep
    exact hrun
  · exact ⟨_, step_of_faults hrun hdue hword hfaults, faultedBy_sameShared w c s, faultedBy_sameLines w c s,
      fun k => ⟨_, run_of_halted (faultedBy_fault w c s) k⟩⟩

/-- Settles O46: TICK does in the tick context what it does outside it, and the rest is the turn's own. -/
theorem dueTickRunsFirst : Obligations.DueTickRunsFirst := by
  intro s hrun hdue
  obtain ⟨u, hexec, heffect⟩ := exec_effect .tick s
  obtain ⟨-, -, hcommands, hposition, hfirings, hfaulting⟩ := effect_sameInputs heffect
  have hstep : step s = .next (holdFiring (nextSlot s).during (returnFromTick (enterTick (dropSlot u)))) := by
    rw [step_of_tickDue hrun hdue, hidden_enterTick_dropSlot.exec .tick s, hexec]; rfl
  refine ⟨_, u, hstep, hexec, ?_, rfl, Bool.false_or _, by simp [hcommands], by simp [hposition],
    by simp [hfirings], by simp [hfaulting]⟩
  simp [SameBlock, SameShared, SameBuffers, SameLines]

/-- Settles O47: the command leaves a running state with the firing pending, so the next step is its TICK. -/
theorem firingDuringCommandIsHeld : Obligations.FiringDuringCommandIsHeld := by
  intro s w rest i hrun hdue hword hfires hdecode notReinit
  obtain ⟨-, hwf⟩ := encodeDecodeRoundTrip w i hdecode
  obtain ⟨v, hexec, heffect⟩ := exec_effect i (dropCommand (dropSlot s))
  obtain ⟨-, -, hcommands, hposition, -⟩ := effect_sameInputs heffect
  have hstep : step s = .next (endCommand w true v) := by
    rw [step_of_word hrun hdue hword, runWord_instr hdecode, hexec, hfires]; rfl
  have hrun' : Running (endCommand w true v) := (effect_fault heffect hwf notReinit).trans hrun
  have hpending : (endCommand w true v).tickPending = true := Bool.or_true _
  obtain ⟨u, x, hstep', htick, ⟨⟨-, hptr, -⟩, -⟩, -, -, hcommands', hposition', -⟩ :=
    dueTickRunsFirst _ hrun' (Bool.or_eq_true_iff.2 (.inl hpending))
  have hrest : v.commands = rest := by simpa [hword] using hcommands
  refine ⟨_, u, hstep, hpending, hrest, congrArg (· + 1) hposition, hstep', hcommands'.trans hrest, hposition',
    fun hp => ?_⟩
  obtain ⟨y, htick', hptr', -⟩ := exec_tick_shows hp
  obtain rfl : x = y := Host.Outcome.next.inj (htick.symm.trans htick')
  exact hptr.trans hptr'

end

section
/-! The statements about waiting and about the hazards (R272, R281, R282): what a step does where nothing is to be run, when
direct driving is a hazard, and that it runs all the same. -/

namespace Sys2Proof

theorem Position.mem_all (p : Position) : p ∈ Position.all := by cases p <;> decide

namespace Machine

/-! ## Waiting (R272) -/

/-- A running state where no tick is due and no word is presented waits. -/
theorem step_of_no_word {s : State} (hrun : Running s) (hdue : tickDue s = false) (hword : s.commands = []) :
    step s = .next (dropSlot s) := by
  have hturn : arbitrate s = .wait (dropSlot s) := by
    unfold arbitrate; rw [hrun]; simp [hdue, hword]
  rw [step, takeTurn, hturn]

/-- Past its end the schedule has no slot to use up (log 2). -/
theorem dropSlot_of_no_firings {s : State} (h : s.firings = []) : dropSlot s = s := by
  have hsame : s.firings.tail = s.firings := by rw [h]; rfl
  rw [dropSlot, hsame]

/-! ## When a command is a hazard (R281, R282) -/

theorem someDigitHigh_iff {s : State} : someDigitHigh s = true ↔ ∃ q, readLatch (.dig q) s = .high := by
  simp [someDigitHigh, Position.mem_all]

theorem crossTalkHazard_iff {i : Instr} {s : State} : crossTalkHazard i s = true
    ↔ s.present = true ∧ (∃ q, readLatch (.dig q) s = .high) ∧ writesSegments i = true := by
  simp [crossTalkHazard, someDigitHigh_iff, and_assoc]

theorem twoDigitsHazard_iff {i : Instr} {s : State} {p : Position} (h : enablesDigit i = some p) :
    twoDigitsHazard i s = true ↔ s.present = true ∧ ∃ q, q ≠ p ∧ readLatch (.dig q) s = .high := by
  simp [twoDigitsHazard, h, Position.mem_all]

/-! ## What the hazards and the repair do to the lines (R124, R126, R185) -/

section Present

variable {s : State} (hp : s.present = true)
include hp

theorem exec_segen_present (a : Byte) :
    exec (.segen a) s = .next (drive (.seg (Segment.ofIndex a.toNat)) .low s) := by
  rw [exec_of_present (exec_segen a s) hp, Segment.ofIndex_mod]; rfl

theorem exec_digen_present (a : Byte) :
    exec (.digen a) s = .next (drive (.dig (Position.ofIndex a.toNat)) .high s) := by
  rw [exec_of_present (exec_digen a s) hp, Position.ofIndex_mod]; rfl

/-- R185: whatever stood on the digit lines, SHOW leaves its own digit alone High. -/
theorem exec_showPos_digits (b : Byte) : ∃ u, exec (.showPos b) s = .next u
    ∧ ∀ p, readLatch (.dig p) u = if p.index = b.toNat % 4 then .high else .low := by
  obtain ⟨u, hexec, -, hlatch, -⟩ := exec_writes (exec_showPos b s) hp
  obtain ⟨hdig, -⟩ := showsAlone_of_showWrites hlatch
  exact ⟨u, hexec, fun p => (hdig p).trans (if_congr eq_positionOperand_iff rfl rfl)⟩

end Present

/-- Enabling a digit line disables no other. -/
theorem readLatch_drive_high_of_high {l k : Line} {s : State} (h : readLatch k s = .high) :
    readLatch k (drive l .high s) = .high := by
  rw [readLatch_drive, h, ite_self]

end Machine

end Sys2Proof

open Sys2Proof Sys2Proof.Machine

/-- Settles O49: the turn is to wait, and it uses up the slot that an ended schedule has not. -/
theorem blockWaitsForAWord : Obligations.BlockWaitsForAWord := by
  intro s hrun hdue hword
  have hstep := step_of_no_word hrun hdue hword
  exact ⟨hstep, fun hended => by rw [hstep, dropSlot_of_no_firings hended]⟩

/-- Settles O57: each hazard is one line write of a present state, and SHOW begins by disabling every digit. -/
theorem hazardsAreNotRefused : Obligations.HazardsAreNotRefused := by
  refine ⟨fun a s q hp hq => ?_, fun a s q hp hq hother => ?_⟩
  · refine ⟨crossTalkHazard_iff.2 ⟨hp, ⟨q, hq⟩, rfl⟩, _, exec_segen_present hp a, drive_fault .., lighting_eq_lit.2 ?_⟩
    simp [readLatch_drive, hq]
  · have hne : q ≠ positionOperand a := mt eq_positionOperand_iff.1 hother
    have hdigen := exec_digen_present hp a
    refine ⟨(twoDigitsHazard_iff rfl).2 ⟨hp, q, hne, hq⟩, ⟨_, hdigen, drive_fault .., ?_, ?_⟩, fun b => ?_⟩
    · exact readLatch_drive_high_of_high hq
    · rw [readLatch_drive, if_pos rfl]
    · obtain ⟨u, hshow, hdigits⟩ := exec_showPos_digits ((drive_present ..).trans hp) b
      refine ⟨u, ?_, hdigits⟩
      rw [runCommands_cons _ hdigen, runCommands_cons _ hshow, runCommands]

end
